-- ==== Sys2Proof/Word.lean ====
section
/-! DEFINITION. The value types of the core and the one piece of plain arithmetic the configuration needs.

The core stores whole integers (R58), and every rule computes on mathematical integers (R12), so a signed register holds an
`Int`, whose width is checked when it is written (R13), and a counter or an address is a `Nat`. Only the two-bit sequencer
code `st` and the decode word are bits (R29, R75). -/

namespace Sys2Proof

/-- The value of a signed register or of a signed table entry (R12, R13). -/
abbrev SVal := Int

/-- The two-bit code the sequencer register `st` holds (R29). -/
abbrev SeqCode := BitVec 2

namespace SeqCode

/-- `IDLE = 0b00`, waiting for a command (R29). -/
abbrev idle : SeqCode := 0#2

/-- `RUN = 0b01`, performing iterations (R29). -/
abbrev run : SeqCode := 1#2

/-- `FIN = 0b10`, forming the result (R29). -/
abbrev fin : SeqCode := 2#2

/-- `0b11`, reserved (R29, R78). -/
abbrev rsvd : SeqCode := 3#2

end SeqCode

/-- `bitlength(n)`: the number of bits of `n` in binary, with `bitlength(0) = 0` (R10). -/
def bitLength (n : Nat) : Nat := if n = 0 then 0 else Nat.log2 n + 1

end Sys2Proof
end

