-- ==== Sys2Proof/Config.lean ====
section
/-! DEFINITION. The configuration record (R5 to R10), the configuration errors (R201), the tables' type (R50) and the two
values an implementation fixes that the spec leaves open (R111, I3). -/

namespace Sys2Proof

/-- The elaboration-time parameters. The first six are the source's (R5) and are integers that R201 checks; the five widths
are the spec's own configuration fields (R10). -/
structure Config where
  /-- `IB`, bits of phase resolved by table lookup (R5). -/
  ib : Int
  /-- `CB`, bits of phase resolved by iterative rotation (R5). -/
  cb : Int
  /-- `REPS`, the number of rotation iterations (R5). -/
  reps : Int
  /-- `SCALE`, the magnitude that stands for 1.0 at the output (R5). -/
  scale : Int
  /-- `OE`, guard bits carried through rotation and discarded at the output (R5). -/
  oe : Int
  /-- `ZE`, guard bits of the residual accumulator (R5). -/
  ze : Int
  /-- `W_XY`, the width of `x`, `y` and of `LUT` entries (R10). -/
  wXY : Nat
  /-- `W_Z`, the width of `z` and of `ROT` entries (R10). -/
  wZ : Nat
  /-- `W_OUT`, the width of `cos_q` and `sin_q` (R10). -/
  wOut : Nat
  /-- `W_I`, the width of `i` (R10). -/
  wI : Nat
  /-- `W_S`, the width of `SHIFT` entries (R10). -/
  wS : Nat
  deriving DecidableEq, Repr

/-- The configuration with the default widths of R10 for six source parameters. -/
def Config.ofParams (ib cb reps scale oe ze : Int) : Config where
  ib := ib
  cb := cb
  reps := reps
  scale := scale
  oe := oe
  ze := ze
  wXY := 64
  wZ := 64
  wOut := bitLength scale.toNat + 1
  wI := max 1 (bitLength (reps - 1).toNat)
  wS := bitLength (ib + reps - 1).toNat

/-- REF, the configuration of the source's concrete scenario (R5, D16). -/
def Config.ref : Config := Config.ofParams 11 19 24 32767 8 4

/-- TINY, the hand-checkable configuration (R5, D16). -/
def Config.tiny : Config := Config.ofParams 2 4 4 100 2 2

/-- `IB` as a natural number; every use stands after check 2 of R201. -/
def Config.ibN (c : Config) : Nat := c.ib.toNat

/-- `CB` as a natural number; every use stands after check 4 of R201. -/
def Config.cbN (c : Config) : Nat := c.cb.toNat

/-- `REPS` as a natural number; every use stands after check 1 of R201. -/
def Config.repsN (c : Config) : Nat := c.reps.toNat

/-- `SCALE` as a natural number; every use stands after check 8 of R201. -/
def Config.scaleN (c : Config) : Nat := c.scale.toNat

/-- `OE` as a natural number; every use stands after check 7 of R201. -/
def Config.oeN (c : Config) : Nat := c.oe.toNat

/-- `ZE` as a natural number; every use stands after check 5 of R201. -/
def Config.zeN (c : Config) : Nat := c.ze.toNat

/-- `INB = 2 + IB + CB`, the width of the phase (R6). -/
def Config.inb (c : Config) : Nat := 2 + c.ibN + c.cbN

/-- `TS = 2^IB`, the number of `LUT` entries (R7). -/
def Config.ts (c : Config) : Nat := 2 ^ c.ibN

/-- `FULL_CIRCLE = 2^INB`, the number of distinct phases (R8). -/
def Config.fullCircle (c : Config) : Nat := 2 ^ c.inb

/-- `ZF = 2^(CB + ZE)`, the width of one table sector in accumulator units (R9). -/
def Config.zf (c : Config) : Int := ((2 ^ (c.cbN + c.zeN) : Nat) : Int)

/-- `HALF = 2^(CB + ZE - 1)`, the fixed target offset (R9); an integer because of check 6 of R201. -/
def Config.half (c : Config) : Int := ((2 ^ (c.cbN + c.zeN - 1) : Nat) : Int)

/-- The nine configuration errors, in the order of R201's table. -/
inductive CfgError where
  /-- Check 1: `REPS <= 0`. -/
  | cfgReps
  /-- Check 2: `IB <= 0`. -/
  | cfgIndex
  /-- Check 3: `TS` is not a power of two; it never fails (I7). -/
  | cfgTableSize
  /-- Check 4: `CB < 0`. -/
  | cfgCordic
  /-- Check 5: `ZE < 0`. -/
  | cfgZe
  /-- Check 6: `CB + ZE < 1`. -/
  | cfgCz
  /-- Check 7: `OE < 1`. -/
  | cfgOe
  /-- Check 8: `SCALE < 1`. -/
  | cfgScale
  /-- Check 9: some value of some run does not fit its register. -/
  | cfgWidth
  deriving DecidableEq, Repr

/-- The three read-only address spaces (R50). -/
inductive RomTable where
  /-- `ROT`, the rotation-angle table (R51). -/
  | rot
  /-- `SHIFT`, the shift table (R53). -/
  | shift
  /-- `LUT`, the sine lookup table (R54). -/
  | lut
  deriving DecidableEq, Repr

/-- What GENERATE produces: the contents of the three ROMs and the diagnostic bit (R50, R100). -/
structure Rom where
  /-- `ROT[0..REPS-1]` (R51). -/
  rot : List SVal
  /-- `SHIFT[0..REPS-1]` (R53). -/
  shift : List Nat
  /-- `LUT[0..TS-1]` (R54). -/
  lut : List SVal
  /-- `DIAG_UNIFORM` (R110). -/
  diagUniform : Bool
  deriving DecidableEq, Repr

/-- FREE VALUE (R111, I3; log 5). When the rounding that the platform's `sin`, `cos` and `atan` do can change the integer a
table entry rounds to, this constant decides which it is: modulo 3, 0 stands for the integer below the one a correctly
rounding library gives, 1 for that one, 2 for the one above, within what the library can reach. It depends on the
configuration alone (R112). It has no body, so no proof can see it. -/
opaque Config.libmOffset : Config → RomTable → Nat → Nat

/-- FREE VALUE (R111; log 19). The integer that stands in a table entry before the constant of its formula is added, where
binary64 holds no finite value for a step of the formula or no exact `2^n` that it names. It depends on the configuration
alone (R112). It has no body, so no proof can see it. -/
opaque Config.unstatedEntry : Config → RomTable → Nat → Nat

end Sys2Proof
end

