-- ==== Sys2Proof/Machine/RefTables.lean ====
section
/-! DEFINITION. The tables of the two named configurations as the spec lists them (95_test_vectors.md sections 1.1 and 1.2).
`Sys2Proof/Laws/RefGeneration.lean` proves that GENERATE produces exactly these. -/

namespace Sys2Proof.Machine

/-- The tables of TINY (95_test_vectors.md section 1.1; R51, R53, R54, R115). -/
def tinyRom : Rom := ⟨[41, 42, 42, 42], [2, 3, 4, 5], [72, 211, 317, 374], false⟩

/-- `ROT` of REF: 5340354 once, then 5340355 for every later entry (95_test_vectors.md section 1.2). -/
def refRot : List SVal := 5340354 :: List.replicate 23 5340355

/-- `SHIFT` of REF: `SHIFT[i] = 11 + i` (95_test_vectors.md section 1.2). -/
def refShift : List Nat := (List.range 24).map (11 + ·)

/-- `LUT[0]` to `LUT[127]` of REF. -/
def refLutPart0 : List Nat := [
  3088, 9522, 15956, 22390, 28823, 35257, 41691, 48125, 54558, 60992, 67426, 73859, 80293, 86726, 93159, 99593,
  106026, 112459, 118893, 125326, 131759, 138192, 144624, 151057, 157490, 163923, 170355, 176787, 183220, 189652, 196084, 202516,
  208948, 215380, 221811, 228243, 234674, 241105, 247536, 253967, 260398, 266828, 273259, 279689, 286119, 292549, 298979, 305409,
  311838, 318267, 324696, 331125, 337554, 343982, 350411, 356839, 363267, 369694, 376122, 382549, 388976, 395403, 401829, 408255,
  414681, 421107, 427533, 433958, 440383, 446808, 453232, 459657, 466081, 472504, 478928, 485351, 491774, 498196, 504618, 511040,
  517462, 523884, 530305, 536725, 543146, 549566, 555986, 562405, 568824, 575243, 581662, 588080, 594497, 600915, 607332, 613749,
  620165, 626581, 632997, 639412, 645827, 652241, 658655, 665069, 671482, 677895, 684308, 690720, 697132, 703543, 709954, 716364,
  722774, 729184, 735593, 742002, 748410, 754818, 761226, 767633, 774039, 780445, 786851, 793256, 799661, 806065, 812469, 818872]

/-- `LUT[128]` to `LUT[255]` of REF. -/
def refLutPart1 : List Nat := [
  825275, 831677, 838079, 844480, 850881, 857282, 863681, 870081, 876480, 882878, 889276, 895673, 902070, 908466, 914862, 921257,
  927651, 934045, 940439, 946832, 953224, 959616, 966007, 972398, 978788, 985177, 991566, 997955, 1004343, 1010730, 1017116, 1023502,
  1029888, 1036273, 1042657, 1049040, 1055423, 1061806, 1068187, 1074568, 1080949, 1087329, 1093708, 1100086, 1106464, 1112841, 1119218, 1125594,
  1131969, 1138344, 1144718, 1151091, 1157464, 1163835, 1170207, 1176577, 1182947, 1189316, 1195685, 1202052, 1208419, 1214786, 1221151, 1227516,
  1233880, 1240244, 1246606, 1252968, 1259329, 1265690, 1272050, 1278409, 1284767, 1291124, 1297481, 1303837, 1310192, 1316547, 1322900, 1329253,
  1335605, 1341957, 1348307, 1354657, 1361006, 1367354, 1373701, 1380048, 1386393, 1392738, 1399082, 1405426, 1411768, 1418109, 1424450, 1430790,
  1437129, 1443467, 1449805, 1456141, 1462477, 1468812, 1475146, 1481479, 1487811, 1494142, 1500473, 1506802, 1513131, 1519459, 1525786, 1532112,
  1538437, 1544761, 1551084, 1557407, 1563728, 1570048, 1576368, 1582687, 1589005, 1595321, 1601637, 1607952, 1614266, 1620579, 1626891, 1633202]

/-- `LUT[256]` to `LUT[383]` of REF. -/
def refLutPart2 : List Nat := [
  1639512, 1645822, 1652130, 1658437, 1664743, 1671049, 1677353, 1683656, 1689959, 1696260, 1702560, 1708860, 1715158, 1721455, 1727752, 1734047,
  1740341, 1746635, 1752927, 1759218, 1765508, 1771797, 1778085, 1784372, 1790658, 1796943, 1803227, 1809510, 1815792, 1822073, 1828352, 1834631,
  1840908, 1847185, 1853460, 1859734, 1866007, 1872279, 1878550, 1884820, 1891088, 1897356, 1903623, 1909888, 1916152, 1922415, 1928677, 1934938,
  1941198, 1947456, 1953714, 1959970, 1966225, 1972479, 1978732, 1984983, 1991234, 1997483, 2003731, 2009978, 2016224, 2022468, 2028712, 2034954,
  2041195, 2047435, 2053673, 2059910, 2066147, 2072382, 2078615, 2084848, 2091079, 2097309, 2103538, 2109765, 2115992, 2122217, 2128441, 2134663,
  2140885, 2147105, 2153323, 2159541, 2165757, 2171972, 2178186, 2184398, 2190609, 2196819, 2203028, 2209235, 2215441, 2221646, 2227849, 2234051,
  2240252, 2246451, 2252649, 2258846, 2265042, 2271236, 2277428, 2283620, 2289810, 2295999, 2302186, 2308372, 2314557, 2320740, 2326922, 2333103,
  2339282, 2345460, 2351636, 2357811, 2363985, 2370157, 2376328, 2382497, 2388666, 2394832, 2400997, 2407161, 2413324, 2419485, 2425644, 2431803]

/-- `LUT[384]` to `LUT[511]` of REF. -/
def refLutPart3 : List Nat := [
  2437959, 2444115, 2450269, 2456421, 2462572, 2468722, 2474870, 2481016, 2487161, 2493305, 2499447, 2505588, 2511727, 2517865, 2524002, 2530136,
  2536270, 2542402, 2548532, 2554661, 2560788, 2566914, 2573039, 2579161, 2585283, 2591403, 2597521, 2603638, 2609753, 2615866, 2621979, 2628089,
  2634198, 2640306, 2646412, 2652516, 2658619, 2664720, 2670820, 2676918, 2683015, 2689110, 2695203, 2701295, 2707385, 2713474, 2719561, 2725646,
  2731730, 2737812, 2743893, 2749972, 2756049, 2762125, 2768199, 2774272, 2780343, 2786412, 2792479, 2798545, 2804610, 2810672, 2816733, 2822793,
  2828850, 2834906, 2840961, 2847013, 2853064, 2859114, 2865161, 2871207, 2877252, 2883294, 2889335, 2895374, 2901412, 2907448, 2913482, 2919514,
  2925545, 2931574, 2937601, 2943626, 2949650, 2955672, 2961692, 2967711, 2973728, 2979743, 2985756, 2991767, 2997777, 3003785, 3009791, 3015796,
  3021798, 3027799, 3033798, 3039796, 3045791, 3051785, 3057777, 3063767, 3069755, 3075742, 3081727, 3087710, 3093691, 3099670, 3105648, 3111623,
  3117597, 3123569, 3129539, 3135507, 3141474, 3147438, 3153401, 3159362, 3165321, 3171278, 3177234, 3183187, 3189139, 3195088, 3201036, 3206982]

/-- `LUT[512]` to `LUT[639]` of REF. -/
def refLutPart4 : List Nat := [
  3212926, 3218868, 3224809, 3230747, 3236683, 3242618, 3248551, 3254481, 3260410, 3266337, 3272262, 3278185, 3284106, 3290025, 3295943, 3301858,
  3307771, 3313683, 3319592, 3325500, 3331405, 3337309, 3343211, 3349110, 3355008, 3360904, 3366798, 3372689, 3378579, 3384467, 3390353, 3396237,
  3402118, 3407998, 3413876, 3419752, 3425626, 3431497, 3437367, 3443235, 3449101, 3454964, 3460826, 3466686, 3472543, 3478399, 3484252, 3490104,
  3495953, 3501800, 3507646, 3513489, 3519330, 3525169, 3531006, 3536841, 3542674, 3548505, 3554333, 3560160, 3565984, 3571807, 3577627, 3583445,
  3589261, 3595075, 3600887, 3606697, 3612504, 3618310, 3624113, 3629915, 3635714, 3641511, 3647305, 3653098, 3658889, 3664677, 3670463, 3676247,
  3682029, 3687809, 3693586, 3699362, 3705135, 3710906, 3716675, 3722441, 3728206, 3733968, 3739728, 3745486, 3751242, 3756995, 3762746, 3768495,
  3774242, 3779987, 3785729, 3791469, 3797207, 3802943, 3808676, 3814407, 3820136, 3825863, 3831588, 3837310, 3843030, 3848747, 3854463, 3860176,
  3865887, 3871595, 3877302, 3883006, 3888708, 3894407, 3900104, 3905799, 3911492, 3917182, 3922870, 3928556, 3934239, 3939920, 3945599, 3951275]

/-- `LUT[640]` to `LUT[767]` of REF. -/
def refLutPart5 : List Nat := [
  3956949, 3962621, 3968291, 3973958, 3979622, 3985285, 3990945, 3996603, 4002258, 4007911, 4013562, 4019210, 4024856, 4030500, 4036141, 4041780,
  4047416, 4053050, 4058682, 4064311, 4069938, 4075562, 4081185, 4086804, 4092422, 4098036, 4103649, 4109259, 4114867, 4120472, 4126075, 4131675,
  4137273, 4142869, 4148462, 4154052, 4159640, 4165226, 4170810, 4176390, 4181969, 4187545, 4193118, 4198689, 4204258, 4209824, 4215387, 4220948,
  4226507, 4232063, 4237617, 4243168, 4248717, 4254263, 4259806, 4265348, 4270886, 4276422, 4281956, 4287487, 4293016, 4298542, 4304065, 4309586,
  4315105, 4320620, 4326134, 4331645, 4337153, 4342659, 4348162, 4353662, 4359160, 4364656, 4370149, 4375639, 4381127, 4386612, 4392095, 4397575,
  4403052, 4408527, 4413999, 4419469, 4424936, 4430400, 4435862, 4441321, 4446778, 4452232, 4457683, 4463132, 4468578, 4474022, 4479463, 4484901,
  4490337, 4495770, 4501200, 4506628, 4512053, 4517475, 4522895, 4528312, 4533726, 4539138, 4544547, 4549953, 4555357, 4560758, 4566156, 4571552,
  4576945, 4582335, 4587723, 4593108, 4598490, 4603869, 4609246, 4614620, 4619991, 4625360, 4630726, 4636089, 4641449, 4646807, 4652162, 4657514]

/-- `LUT[768]` to `LUT[895]` of REF. -/
def refLutPart6 : List Nat := [
  4662864, 4668211, 4673555, 4678896, 4684234, 4689570, 4694903, 4700233, 4705561, 4710885, 4716207, 4721527, 4726843, 4732157, 4737467, 4742775,
  4748081, 4753383, 4758683, 4763979, 4769274, 4774565, 4779853, 4785139, 4790422, 4795702, 4800979, 4806253, 4811525, 4816793, 4822059, 4827322,
  4832582, 4837840, 4843094, 4848346, 4853594, 4858840, 4864083, 4869324, 4874561, 4879795, 4885027, 4890256, 4895482, 4900705, 4905925, 4911142,
  4916356, 4921568, 4926776, 4931982, 4937184, 4942384, 4947581, 4952775, 4957966, 4963154, 4968340, 4973522, 4978701, 4983878, 4989051, 4994222,
  4999390, 5004554, 5009716, 5014875, 5020031, 5025184, 5030334, 5035481, 5040625, 5045766, 5050904, 5056039, 5061171, 5066301, 5071427, 5076550,
  5081670, 5086787, 5091902, 5097013, 5102121, 5107227, 5112329, 5117428, 5122524, 5127617, 5132708, 5137795, 5142879, 5147960, 5153038, 5158113,
  5163185, 5168254, 5173320, 5178383, 5183443, 5188500, 5193554, 5198605, 5203652, 5208697, 5213738, 5218777, 5223812, 5228845, 5233874, 5238900,
  5243923, 5248943, 5253960, 5258974, 5263985, 5268992, 5273997, 5278998, 5283997, 5288992, 5293984, 5298973, 5303959, 5308942, 5313921, 5318898]

/-- `LUT[896]` to `LUT[1023]` of REF. -/
def refLutPart7 : List Nat := [
  5323871, 5328841, 5333808, 5338772, 5343733, 5348691, 5353646, 5358597, 5363545, 5368490, 5373432, 5378371, 5383307, 5388239, 5393168, 5398094,
  5403017, 5407937, 5412854, 5417767, 5422677, 5427584, 5432488, 5437389, 5442286, 5447180, 5452071, 5456959, 5461844, 5466725, 5471603, 5476478,
  5481350, 5486218, 5491084, 5495946, 5500804, 5505660, 5510512, 5515361, 5520207, 5525050, 5529889, 5534725, 5539558, 5544388, 5549214, 5554037,
  5558857, 5563673, 5568487, 5573297, 5578103, 5582907, 5587707, 5592504, 5597297, 5602087, 5606874, 5611658, 5616438, 5621215, 5625989, 5630760,
  5635527, 5640290, 5645051, 5649808, 5654562, 5659312, 5664060, 5668804, 5673544, 5678281, 5683015, 5687746, 5692473, 5697196, 5701917, 5706634,
  5711348, 5716058, 5720765, 5725469, 5730169, 5734866, 5739560, 5744250, 5748937, 5753620, 5758300, 5762977, 5767650, 5772320, 5776986, 5781649,
  5786309, 5790965, 5795618, 5800267, 5804913, 5809556, 5814195, 5818831, 5823463, 5828092, 5832718, 5837340, 5841958, 5846573, 5851185, 5855794,
  5860398, 5865000, 5869598, 5874192, 5878783, 5883371, 5887955, 5892536, 5897113, 5901687, 5906257, 5910824, 5915387, 5919947, 5924503, 5929056]

/-- `LUT[1024]` to `LUT[1151]` of REF. -/
def refLutPart8 : List Nat := [
  5933605, 5938151, 5942694, 5947233, 5951768, 5956300, 5960828, 5965353, 5969874, 5974392, 5978907, 5983418, 5987925, 5992429, 5996929, 6001426,
  6005919, 6010408, 6014895, 6019377, 6023856, 6028332, 6032804, 6037272, 6041737, 6046198, 6050656, 6055110, 6059561, 6064008, 6068451, 6072891,
  6077328, 6081761, 6086190, 6090615, 6095037, 6099456, 6103871, 6108282, 6112690, 6117094, 6121494, 6125891, 6130284, 6134674, 6139060, 6143443,
  6147821, 6152197, 6156568, 6160936, 6165301, 6169661, 6174018, 6178372, 6182722, 6187068, 6191410, 6195749, 6200085, 6204416, 6208744, 6213069,
  6217389, 6221706, 6226020, 6230329, 6234635, 6238938, 6243236, 6247531, 6251823, 6256110, 6260394, 6264675, 6268951, 6273224, 6277493, 6281759,
  6286021, 6290279, 6294533, 6298784, 6303031, 6307274, 6311514, 6315750, 6319982, 6324211, 6328435, 6332656, 6336874, 6341087, 6345297, 6349503,
  6353706, 6357904, 6362099, 6366290, 6370478, 6374661, 6378841, 6383017, 6387190, 6391358, 6395523, 6399684, 6403842, 6407995, 6412145, 6416291,
  6420434, 6424572, 6428707, 6432838, 6436965, 6441088, 6445208, 6449324, 6453436, 6457544, 6461648, 6465749, 6469845, 6473938, 6478028, 6482113]

/-- `LUT[1152]` to `LUT[1279]` of REF. -/
def refLutPart9 : List Nat := [
  6486195, 6490272, 6494346, 6498416, 6502483, 6506545, 6510604, 6514658, 6518709, 6522756, 6526800, 6530839, 6534875, 6538907, 6542935, 6546959,
  6550979, 6554995, 6559008, 6563016, 6567021, 6571022, 6575019, 6579012, 6583002, 6586987, 6590969, 6594946, 6598920, 6602890, 6606856, 6610818,
  6614776, 6618731, 6622681, 6626628, 6630571, 6634509, 6638444, 6642375, 6646302, 6650225, 6654145, 6658060, 6661971, 6665879, 6669783, 6673682,
  6677578, 6681470, 6685358, 6689242, 6693122, 6696998, 6700870, 6704738, 6708602, 6712462, 6716319, 6720171, 6724020, 6727864, 6731705, 6735541,
  6739374, 6743202, 6747027, 6750848, 6754664, 6758477, 6762286, 6766091, 6769892, 6773688, 6777481, 6781270, 6785055, 6788836, 6792613, 6796386,
  6800155, 6803920, 6807680, 6811437, 6815190, 6818939, 6822684, 6826425, 6830162, 6833894, 6837623, 6841348, 6845069, 6848785, 6852498, 6856207,
  6859911, 6863612, 6867309, 6871001, 6874690, 6878374, 6882054, 6885731, 6889403, 6893071, 6896735, 6900395, 6904052, 6907704, 6911351, 6914995,
  6918635, 6922271, 6925902, 6929530, 6933154, 6936773, 6940388, 6944000, 6947607, 6951210, 6954809, 6958404, 6961995, 6965581, 6969164, 6972742]

/-- `LUT[1280]` to `LUT[1407]` of REF. -/
def refLutPart10 : List Nat := [
  6976317, 6979887, 6983453, 6987015, 6990573, 6994127, 6997677, 7001223, 7004764, 7008302, 7011835, 7015364, 7018889, 7022410, 7025927, 7029439,
  7032948, 7036452, 7039953, 7043449, 7046941, 7050428, 7053912, 7057392, 7060867, 7064338, 7067805, 7071268, 7074727, 7078181, 7081632, 7085078,
  7088520, 7091958, 7095392, 7098821, 7102246, 7105668, 7109085, 7112498, 7115906, 7119311, 7122711, 7126107, 7129499, 7132887, 7136270, 7139649,
  7143024, 7146395, 7149762, 7153124, 7156483, 7159837, 7163187, 7166532, 7169874, 7173211, 7176544, 7179873, 7183197, 7186518, 7189834, 7193146,
  7196453, 7199757, 7203056, 7206351, 7209641, 7212928, 7216210, 7219488, 7222762, 7226031, 7229296, 7232557, 7235814, 7239066, 7242315, 7245558,
  7248798, 7252033, 7255265, 7258491, 7261714, 7264932, 7268146, 7271356, 7274562, 7277763, 7280960, 7284152, 7287341, 7290525, 7293705, 7296880,
  7300051, 7303218, 7306381, 7309539, 7312693, 7315843, 7318988, 7322129, 7325266, 7328399, 7331527, 7334651, 7337770, 7340885, 7343996, 7347103,
  7350205, 7353303, 7356397, 7359486, 7362571, 7365652, 7368728, 7371800, 7374868, 7377931, 7380990, 7384044, 7387095, 7390141, 7393182, 7396219]

/-- `LUT[1408]` to `LUT[1535]` of REF. -/
def refLutPart11 : List Nat := [
  7399252, 7402281, 7405305, 7408325, 7411340, 7414351, 7417358, 7420360, 7423358, 7426352, 7429341, 7432326, 7435307, 7438283, 7441254, 7444222,
  7447185, 7450143, 7453098, 7456048, 7458993, 7461934, 7464871, 7467803, 7470731, 7473655, 7476574, 7479488, 7482399, 7485305, 7488206, 7491103,
  7493996, 7496884, 7499768, 7502648, 7505523, 7508393, 7511260, 7514121, 7516979, 7519832, 7522680, 7525524, 7528364, 7531199, 7534030, 7536857,
  7539678, 7542496, 7545309, 7548118, 7550922, 7553722, 7556517, 7559308, 7562094, 7564876, 7567654, 7570427, 7573196, 7575960, 7578719, 7581475,
  7584226, 7586972, 7589714, 7592451, 7595184, 7597913, 7600637, 7603356, 7606071, 7608782, 7611488, 7614189, 7616887, 7619579, 7622267, 7624951,
  7627630, 7630305, 7632975, 7635641, 7638302, 7640959, 7643611, 7646259, 7648902, 7651541, 7654176, 7656805, 7659431, 7662051, 7664668, 7667279,
  7669887, 7672489, 7675088, 7677681, 7680270, 7682855, 7685435, 7688011, 7690582, 7693148, 7695711, 7698268, 7700821, 7703369, 7705913, 7708453,
  7710988, 7713518, 7716044, 7718565, 7721082, 7723594, 7726101, 7728605, 7731103, 7733597, 7736087, 7738571, 7741052, 7743527, 7745999, 7748465]

/-- `LUT[1536]` to `LUT[1663]` of REF. -/
def refLutPart12 : List Nat := [
  7750927, 7753385, 7755838, 7758286, 7760730, 7763170, 7765604, 7768034, 7770460, 7772881, 7775297, 7777709, 7780117, 7782519, 7784917, 7787311,
  7789700, 7792084, 7794464, 7796839, 7799210, 7801576, 7803938, 7806294, 7808647, 7810994, 7813337, 7815676, 7818010, 7820339, 7822664, 7824984,
  7827299, 7829610, 7831917, 7834218, 7836515, 7838808, 7841096, 7843379, 7845657, 7847931, 7850201, 7852466, 7854726, 7856981, 7859232, 7861478,
  7863720, 7865957, 7868189, 7870417, 7872640, 7874859, 7877073, 7879282, 7881487, 7883687, 7885882, 7888073, 7890259, 7892440, 7894617, 7896789,
  7898956, 7901119, 7903277, 7905431, 7907580, 7909724, 7911864, 7913999, 7916129, 7918254, 7920375, 7922492, 7924603, 7926710, 7928813, 7930910,
  7933003, 7935092, 7937175, 7939254, 7941328, 7943398, 7945463, 7947523, 7949579, 7951630, 7953676, 7955718, 7957755, 7959787, 7961814, 7963837,
  7965855, 7967869, 7969878, 7971882, 7973881, 7975876, 7977866, 7979851, 7981832, 7983808, 7985779, 7987746, 7989707, 7991665, 7993617, 7995565,
  7997508, 7999446, 8001380, 8003309, 8005233, 8007152, 8009067, 8010977, 8012883, 8014783, 8016679, 8018570, 8020457, 8022339, 8024216, 8026088]

/-- `LUT[1664]` to `LUT[1791]` of REF. -/
def refLutPart13 : List Nat := [
  8027956, 8029819, 8031677, 8033530, 8035379, 8037223, 8039062, 8040897, 8042727, 8044552, 8046372, 8048188, 8049999, 8051805, 8053606, 8055403,
  8057195, 8058982, 8060765, 8062542, 8064315, 8066083, 8067847, 8069606, 8071360, 8073109, 8074853, 8076593, 8078328, 8080058, 8081784, 8083505,
  8085220, 8086932, 8088638, 8090340, 8092037, 8093729, 8095416, 8097099, 8098777, 8100450, 8102118, 8103782, 8105441, 8107095, 8108744, 8110389,
  8112029, 8113663, 8115294, 8116919, 8118540, 8120156, 8121767, 8123373, 8124975, 8126571, 8128163, 8129751, 8131333, 8132911, 8134484, 8136052,
  8137615, 8139173, 8140727, 8142276, 8143820, 8145359, 8146894, 8148424, 8149949, 8151469, 8152984, 8154495, 8156001, 8157502, 8158998, 8160489,
  8161976, 8163457, 8164934, 8166407, 8167874, 8169337, 8170794, 8172247, 8173695, 8175139, 8176577, 8178011, 8179440, 8180864, 8182283, 8183698,
  8185107, 8186512, 8187912, 8189307, 8190698, 8192083, 8193464, 8194840, 8196211, 8197577, 8198939, 8200296, 8201647, 8202994, 8204336, 8205674,
  8207006, 8208334, 8209657, 8210975, 8212288, 8213596, 8214900, 8216199, 8217493, 8218782, 8220066, 8221345, 8222620, 8223889, 8225154, 8226414]

/-- `LUT[1792]` to `LUT[1919]` of REF. -/
def refLutPart14 : List Nat := [
  8227669, 8228920, 8230165, 8231406, 8232642, 8233873, 8235099, 8236320, 8237536, 8238748, 8239955, 8241157, 8242354, 8243546, 8244733, 8245916,
  8247093, 8248266, 8249434, 8250597, 8251755, 8252909, 8254057, 8255201, 8256340, 8257474, 8258603, 8259727, 8260846, 8261961, 8263071, 8264175,
  8265275, 8266370, 8267461, 8268546, 8269626, 8270702, 8271773, 8272839, 8273900, 8274956, 8276007, 8277053, 8278095, 8279132, 8280163, 8281190,
  8282212, 8283230, 8284242, 8285249, 8286252, 8287250, 8288242, 8289230, 8290213, 8291192, 8292165, 8293133, 8294097, 8295056, 8296009, 8296958,
  8297902, 8298841, 8299776, 8300705, 8301630, 8302549, 8303464, 8304374, 8305279, 8306179, 8307074, 8307964, 8308850, 8309730, 8310606, 8311477,
  8312343, 8313204, 8314060, 8314911, 8315757, 8316599, 8317435, 8318267, 8319093, 8319915, 8320732, 8321544, 8322351, 8323154, 8323951, 8324743,
  8325531, 8326314, 8327091, 8327864, 8328632, 8329395, 8330154, 8330907, 8331655, 8332399, 8333137, 8333871, 8334600, 8335324, 8336042, 8336757,
  8337466, 8338170, 8338869, 8339564, 8340253, 8340938, 8341618, 8342292, 8342962, 8343627, 8344287, 8344942, 8345593, 8346238, 8346879, 8347514]

/-- `LUT[1920]` to `LUT[2047]` of REF. -/
def refLutPart15 : List Nat := [
  8348145, 8348770, 8349391, 8350007, 8350618, 8351224, 8351825, 8352421, 8353013, 8353599, 8354181, 8354757, 8355329, 8355896, 8356458, 8357014,
  8357566, 8358114, 8358656, 8359193, 8359725, 8360253, 8360775, 8361293, 8361805, 8362313, 8362816, 8363314, 8363807, 8364295, 8364778, 8365256,
  8365730, 8366198, 8366661, 8367120, 8367574, 8368022, 8368466, 8368905, 8369339, 8369768, 8370192, 8370611, 8371025, 8371435, 8371839, 8372238,
  8372633, 8373022, 8373407, 8373787, 8374162, 8374532, 8374897, 8375257, 8375612, 8375962, 8376307, 8376648, 8376983, 8377313, 8377639, 8377960,
  8378275, 8378586, 8378892, 8379193, 8379489, 8379780, 8380066, 8380347, 8380623, 8380895, 8381161, 8381423, 8381679, 8381931, 8382177, 8382419,
  8382656, 8382888, 8383115, 8383337, 8383554, 8383766, 8383973, 8384175, 8384373, 8384565, 8384753, 8384935, 8385113, 8385286, 8385453, 8385616,
  8385774, 8385927, 8386075, 8386218, 8386356, 8386490, 8386618, 8386741, 8386860, 8386973, 8387082, 8387185, 8387284, 8387378, 8387467, 8387550,
  8387629, 8387703, 8387773, 8387837, 8387896, 8387950, 8387999, 8388044, 8388083, 8388118, 8388148, 8388172, 8388192, 8388207, 8388217, 8388222]

/-- The 2048 entries of `LUT` of REF (95_test_vectors.md section 1.2), as natural numbers. -/
def refLutNat : List Nat :=
  (refLutPart0 ++ refLutPart1 ++ refLutPart2 ++ refLutPart3) ++
  (refLutPart4 ++ refLutPart5 ++ refLutPart6 ++ refLutPart7) ++
  (refLutPart8 ++ refLutPart9 ++ refLutPart10 ++ refLutPart11) ++
  (refLutPart12 ++ refLutPart13 ++ refLutPart14 ++ refLutPart15)

/-- `LUT` of REF as signed entries (R54). -/
def refLut : List SVal := refLutNat.map Int.ofNat

/-- The tables of REF (95_test_vectors.md section 1.2). -/
def refRom : Rom := ⟨refRot, refShift, refLut, false⟩

end Sys2Proof.Machine
end

