-- ==== Sys2Proof/Syntax.lean ====
section
/-! DEFINITION. The instructions (one constructor per row of spec/opcode_table.json) and the host's moves. -/

namespace Sys2Proof

/-- What the host drives on the four command inputs in one cycle (R70, R74). The phase is an unbounded natural number here
and is taken modulo `2^INB` where it is used (R73). -/
structure Command where
  rst : Bool
  start : Bool
  traceEn : Bool
  phase : Nat
  deriving DecidableEq, Repr

/-- One move of the outside world: the inputs of one clock cycle, or a reading of the elaboration-time constants, which
takes no clock cycle (R172; log 3). -/
inductive HostMove where
  | cycle (cmd : Command)
  | query
  deriving DecidableEq, Repr

/-- The operations of the core (R2, R75, R100, R172). Inputs that an operation ignores (R77) are no operands of it. -/
inductive Instr where
  /-- `RESET`: the synchronous reset (R230). -/
  | reset
  /-- `NOP`: no command in state IDLE (R141). -/
  | nop
  /-- `SINCOS phase`: start one evaluation without trace (R142). -/
  | sincos (phase : Nat)
  /-- `SINCOS.T phase`: start one evaluation with trace (R143). -/
  | sincosT (phase : Nat)
  /-- `ITER`: one rotation and the doubling of the accumulator (R144). -/
  | iter
  /-- `FINISH`: form the result (R145). -/
  | finish
  /-- `RSVD`: the reserved sequencer code (R78). -/
  | rsvd
  /-- `GENERATE`: build the tables, at elaboration (R100). -/
  | generate
  /-- `QUERY`: read the constants `OUTPUT_SCALE`, `FULL_CIRCLE` and `INPUT_BITS` (R172). -/
  | query
  deriving DecidableEq, Repr

/-- The command of a cycle in which the host drives every input 0 (R80's `NOP` line). -/
def Command.idle : Command := ⟨false, false, false, 0⟩

end Sys2Proof
end

