-- ==== Sys2Proof/Machine/State.lean ====
section
/-! DEFINITION. The state of the machine, why a step stops, and the states at power-up and right after reset.

A register that holds `none` holds "no value": that is the spec's own state of it (R38, R230, R231), not a missing reset
value (log 1). -/

namespace Sys2Proof.Machine

/-- The eleven registers of R20. -/
structure Regs where
  /-- `st`, the sequencer state, 2 bits (R29). -/
  st : Option SeqCode
  /-- `i`, the iteration counter, `W_I` bits unsigned (R30). -/
  i : Option Nat
  /-- `x`, the first coordinate of the rotating vector, `W_XY` bits signed (R21). -/
  x : Option SVal
  /-- `y`, the second coordinate, `W_XY` bits signed (R22). -/
  y : Option SVal
  /-- `z`, the residual-angle accumulator, `W_Z` bits signed (R23). -/
  z : Option SVal
  /-- `fc`, the source's `flip_cos` (R25). -/
  fc : Option Bool
  /-- `fs`, the source's `flip_sin` (R26). -/
  fs : Option Bool
  /-- `tr`, the trace-enable latch (R27). -/
  tr : Option Bool
  /-- `cos_q`, the last completed cosine, `W_OUT` bits signed (R32). -/
  cosQ : Option SVal
  /-- `sin_q`, the last completed sine, `W_OUT` bits signed (R32). -/
  sinQ : Option SVal
  /-- `valid_q`, the completion pulse (R33). -/
  validQ : Option Bool
  deriving DecidableEq, Repr

/-- What QUERY returns (R172). -/
structure QueryAnswer where
  /-- `OUTPUT_SCALE` (R170). -/
  outputScale : Int
  /-- `FULL_CIRCLE` (R171). -/
  fullCircle : Nat
  /-- `INPUT_BITS` (R171). -/
  inputBits : Nat
  deriving DecidableEq, Repr

/-- The machine. The spec's state is `regs`; `cfg` and `rom` are its constants, fixed at elaboration (R20, R35; log 4); the
last three are the model's own. -/
structure State where
  /-- The configuration record (R5, R10); no instruction writes it. -/
  cfg : Config
  /-- The ROMs and the diagnostic bit (R50); `none` before GENERATE has built them (R232). -/
  rom : Option Rom
  /-- How many informational elaboration messages were reported (R176). -/
  messages : Nat
  /-- What the last QUERY returned (R172; log 3). -/
  answer : Option QueryAnswer
  /-- The eleven registers (R20). -/
  regs : Regs
  /-- The host's moves still to come, the next one first (R80, R237; log 2). -/
  pending : List HostMove
  deriving DecidableEq, Repr

/-- The reasons the machine stops. Each is the spec's own outcome (R201, R202) and none changes a value, so each is safe. -/
inductive Fault where
  /-- `FAULT_RSVD_STATE` (R78, R202): raised by RSVD, `st = 0b11` in a cycle with `rst = 0`. Safe. -/
  | rsvdState
  /-- `FAULT_UNDEF_READ` (R202, R231): raised by the decode, ITER and FINISH when they read a register that holds no value.
  Safe. -/
  | undefRead
  /-- `FAULT_ADDR` (R57, R202): raised by SINCOS, SINCOS.T and ITER on a table address outside the table. Safe. -/
  | addr
  /-- `FAULT_OVERFLOW` (R13, R202): raised by SINCOS, SINCOS.T, ITER and FINISH when a value written to `x`, `y` or `z`, or a
  negation FINISH forms, does not fit its width. Safe. -/
  | overflow
  /-- `FAULT_OUT_RANGE` (R145, R202): raised by FINISH when a result does not fit `W_OUT` bits. Safe. -/
  | outRange
  /-- `CfgError(code)` (R201): raised by GENERATE; no hardware is produced. Safe. -/
  | cfgError (code : CfgError)
  deriving DecidableEq, Repr

/-- The reasons an instruction has no meaning. -/
inductive Refusal where
  /-- An instruction `exec` gives no meaning yet, by its mnemonic. Raised by no arm. Safe. -/
  | notModelled (mnemonic : String)
  /-- The decoder refused the decode word of a cycle. It cannot happen: the decode word of every state and command has
  `INB + 5` bits (R75). Safe. -/
  | notADecodeWord
  deriving DecidableEq, Repr

/-- Power-up, before the first edge with `rst = 1`: no register holds a value (R231). -/
def Regs.powerUp : Regs := ⟨none, none, none, none, none, none, none, none, none, none, none⟩

/-- The reset values of R38. `x`, `y`, `z`, `fc` and `fs` take no value, as R38's table ("unspecified"), the pseudocode of R230
("no value") and D31 state. -/
def Regs.reset : Regs where
  st := some SeqCode.idle
  i := some 0
  x := none
  y := none
  z := none
  fc := none
  fs := none
  tr := some false
  cosQ := some 0
  sinQ := some 0
  validQ := some false

/-- A configuration whose tables are not built yet: steps 1 to 3 of R232 are still to come, and no message has been reported.
That the count of messages starts here, at 0, is the model's (DESIGN CHOICE, log 16). -/
def State.unbuilt (c : Config) : State := ⟨c, none, 0, none, Regs.powerUp, []⟩

/-- A core that has been built and is powered, before its first reset (R231; steps 1 to 4 of R232). It counts the message that
its elaboration reported where `DIAG_UNIFORM = 1` (R176; DESIGN CHOICE, log 16). -/
def State.powerUp (c : Config) (rom : Rom) : State := ⟨c, some rom, rom.diagUniform.toNat, none, Regs.powerUp, []⟩

/-- The machine right after reset: the REF core (log 4), built, with the reset values of R38 and no move of the host
pending. No message is counted, because REF's `DIAG_UNIFORM` is 0 (R176, log 16). -/
def State.reset : State := ⟨Config.ref, some refRom, 0, none, Regs.reset, []⟩

/-- The state with other registers. -/
def State.withRegs (s : State) (r : Regs) : State := { s with regs := r }

/-- The state with built tables. -/
def State.withRom (s : State) (rom : Rom) : State := { s with rom := some rom }

/-- The state with another count of elaboration messages. -/
def State.withMessages (s : State) (n : Nat) : State := { s with messages := n }

/-- The state with the answer of a QUERY. -/
def State.withAnswer (s : State) (a : QueryAnswer) : State := { s with answer := some a }

/-- The state with other pending moves. -/
def State.withPending (s : State) (ms : List HostMove) : State := { s with pending := ms }

end Sys2Proof.Machine
end

