-- ==== Sys2Proof/Machine/Ops.lean ====
section
/-! DEFINITION. The shared operations: exact arithmetic with its width check, the read of a register, the reads of the ROMs,
and raising a fault. The core has no trap and no trap return (R205, R206): raising a fault is the whole of "taking an
exception", and a cycle with `rst = 1` (RESET) is the only way out of a state. -/

namespace Sys2Proof.Machine

/-- `raise Fault(reason)` (R14, R202): the run stops; the faulted state takes no further step. -/
def raise (f : Fault) : Host.Outcome State Fault Refusal := .fault f

/-- `a >>> s = floor(a / 2^s)` for every `s` (R12, D20). -/
def asr (a : Int) (s : Nat) : Int := a / ((2 ^ s : Nat) : Int)

/-- `fits_N(a)`: `-2^(N-1) <= a < 2^(N-1)` (R13). No integer fits zero bits. -/
def fits (n : Nat) (a : Int) : Bool :=
  match n with
  | 0 => false
  | m + 1 => decide (-((2 ^ m : Nat) : Int) ≤ a) && decide (a < ((2 ^ m : Nat) : Int))

/-- The value of a register, or `FAULT_UNDEF_READ` if it holds none (R202). -/
def readReg {α : Type} (r : Option α) : Except Fault α :=
  match r with
  | some v => .ok v
  | none => .error .undefRead

/-- A table entry, or `FAULT_ADDR` if the address is outside the table (R57). -/
def readEntry {α : Type} (table : List α) (k : Nat) : Except Fault α :=
  match table[k]? with
  | some v => .ok v
  | none => .error .addr

/-- The tables as they stand: before GENERATE there is no entry in any of them (R232). -/
def State.tables (s : State) : Rom :=
  match s.rom with
  | some rom => rom
  | none => ⟨[], [], [], false⟩

/-- `valid_q <- v`, which every operation of a cycle writes (R33). -/
def Regs.setValid (r : Regs) (v : Bool) : Regs := { r with validQ := some v }

end Sys2Proof.Machine
end

