-- ==== Sys2Proof/Machine/Control.lean ====
section
/-! DEFINITION. RESET, NOP and RSVD. -/

namespace Sys2Proof.Machine

/-- RESET (R230): the reset values, in any state and with any other input; `x`, `y`, `z`, `fc` and `fs` take no value. The
ROMs are not affected (R56). -/
def execReset (s : State) : Host.Outcome State Fault Refusal :=
  .next (s.withRegs
    { st := some SeqCode.idle, i := some 0, tr := some false, validQ := some false, cosQ := some 0, sinQ := some 0,
      x := none, y := none, z := none, fc := none, fs := none })

/-- NOP (R141): `valid_q <- 0`; every other register keeps its value. -/
def execNop (s : State) : Host.Outcome State Fault Refusal :=
  .next (s.withRegs (s.regs.setValid false))

/-- RSVD (R78, R202): a cycle with `st = 0b11` and `rst = 0` is the model fault `FAULT_RSVD_STATE`. -/
def execRsvd (_s : State) : Host.Outcome State Fault Refusal :=
  raise .rsvdState

end Sys2Proof.Machine
end

