-- ==== Sys2Proof/Machine/Binary64.lean ====
section
/-! DEFINITION. IEEE 754 binary64 arithmetic on the numbers GENERATE meets, none of them negative (R111), and the library
functions `atan`, `sin` and `cos`.

A number is held as a count of `2^-1074`, the least positive binary64 number, so that every finite binary64 number is exact and
the subnormal ones need no case of their own. Counts of `inf64` and more stand for "no finite binary64 number". -/

namespace Sys2Proof.Machine

/-- `1.0`. -/
def one64 : Nat := 2 ^ 1074

/-- `2^1024`, the first count beyond the finite numbers; every operation gives it where its result or an operand is not finite. -/
def inf64 : Nat := 2 ^ 2098

/-- The binary64 number nearest to pi (R111). -/
def pi64 : Nat := 7074237752028440 * 2 ^ 1023

/-- `2*pi`, the exact double of `pi64` (R111). -/
def twoPi64 : Nat := 2 * pi64

/-- The ways a result can be rounded. The basic operations round to nearest, ties to even. A library function gives the nearest
number or, where it is less exact, one of the two numbers beside the exact value: `low` or `high` (log 6). -/
inductive Rounding where
  /-- Toward zero. -/
  | low
  /-- To nearest, ties to even. -/
  | nearest
  /-- Away from zero. -/
  | high
  deriving DecidableEq, Repr

/-- The opposite direction, for an operand of a decreasing function. -/
def Rounding.flip : Rounding → Rounding
  | .low => .high
  | .nearest => .nearest
  | .high => .low

/-- The number of bits of `n` from that of its upper part, where it has more than `e` bits. -/
def bitsAbove (e : Nat) (rest : Nat → Nat) (n : Nat) : Nat :=
  match n / 2 ^ e with
  | 0 => rest n
  | q + 1 => e + rest (q + 1)

/-- The number of bits of `n < 2^(2^k)`, by halving the range. -/
def bitsBelow : Nat → Nat → Nat
  | 0 => id
  | k + 1 => bitsAbove (2 ^ k) (bitsBelow k)

/-- The number of bits of `n`: `bitLength n`, in the form that the kernel evaluates fast. -/
def bits64 (n : Nat) : Nat := if n < 2 ^ 4096 then bitsBelow 12 n else bitLength n

/-- The exponent of the quantum at `num/den`: what 53 significant bits leave, and 0 for the subnormal numbers. -/
def quantumExp (num den : Nat) : Nat := bits64 (num / den) - 53

/-- The significand of `num/den` in units of `d/den`: the quotient, or one more, as the direction says. -/
def roundQuotient (m : Rounding) (num d : Nat) : Nat :=
  match m with
  | .low => num / d
  | .nearest => if d < 2 * (num % d) ∨ (d = 2 * (num % d) ∧ num / d % 2 = 1) then num / d + 1 else num / d
  | .high => if num % d = 0 then num / d else num / d + 1

/-- The binary64 number for the exact value `num/den`, before the test for overflow. -/
def round64 (m : Rounding) (num den : Nat) : Nat :=
  roundQuotient m num (den * 2 ^ quantumExp num den) * 2 ^ quantumExp num den

/-- The result of a basic operation with the exact value `num/den`, on finite operands only. -/
def arith64 (finite : Bool) (num den : Nat) : Nat := if finite then min inf64 (round64 .nearest num den) else inf64

/-- A count below `inf64` is a finite number. -/
def isFinite64 (a : Nat) : Bool := decide (a < inf64)

/-- An integer as a binary64 number. -/
def ofNat64 (n : Nat) : Nat := arith64 true (n * one64) 1

/-- Addition. -/
def add64 (a b : Nat) : Nat := arith64 (isFinite64 a && isFinite64 b) (a + b) 1

/-- Multiplication. -/
def mul64 (a b : Nat) : Nat := arith64 (isFinite64 a && isFinite64 b) (a * b) one64

/-- Division by a number that is not zero. -/
def div64 (a b : Nat) : Nat := arith64 (isFinite64 a && isFinite64 b) (a * one64) b

/-- Multiplication by `2^n`, which is exact (R111) while binary64 holds `2^n` (log 19). -/
def scaleUp64 (a n : Nat) : Nat := arith64 (isFinite64 a && decide (n ≤ 1023)) (a * 2 ^ n) 1

/-- Division by `2^n`, which is exact (R111) while binary64 holds `2^n` (log 19). -/
def scaleDown64 (a n : Nat) : Nat := arith64 (isFinite64 a && decide (n ≤ 1023)) a (2 ^ n)

/-- `2^-n`, exact for `n <= 1074`, and 0 beyond (log 19). -/
def powNeg64 (n : Nat) : Nat := one64 / 2 ^ n

/-- `round` to an integer: to nearest, ties away from zero (R111, D30). -/
def toNearestInt (a : Nat) : Nat := (a + 2 ^ 1073) / one64

/-- `floor` to an integer, exact (R111). -/
def toFloorInt (a : Nat) : Nat := a / one64

/-- `ceil(log2 a)` of a positive finite number (R103). -/
def ceilLog2 (a : Nat) : Option Int := if a = 0 || !isFinite64 a then none else some ((bits64 (a - 1) : Int) - 1074)

/-! ### The library functions

Each is a power series on a fixed-point number with 160 significant bits, so the series is within `2^-140` of the exact value
and only the final rounding matters. -/

/-- The fixed-point precision for an argument: 160 bits below its leading bit, or below 1 for an argument above 1. -/
def fxPrec (x : Nat) : Nat := 160 + (1074 - bits64 x)

/-- The argument at that precision, without loss. -/
def toFx (x : Nat) : Nat := x * 2 ^ fxPrec x / one64

/-- `pw/d - pw*x2/(d+2) + pw*x2^2/(d+4) - ...`: the arctangent series, at most `n` terms, each factor at precision `p`. -/
def arctanSeries (p x2 : Nat) : Nat → Nat → Nat → Nat
  | 0, _, _ => 0
  | n + 1, d, pw => if pw = 0 then 0 else pw / d - arctanSeries p x2 n (d + 2) (pw * x2 / 2 ^ p)

/-- `t - t*x2/((d+1)(d+2)) + ...`: the sine series (`d = 1`, `t = x`) and the cosine series (`d = 0`, `t = 1`). -/
def sineSeries (p x2 : Nat) : Nat → Nat → Nat → Nat
  | 0, _, _ => 0
  | n + 1, d, t => if t = 0 then 0 else t - sineSeries p x2 n (d + 2) (t * x2 / 2 ^ p / ((d + 1) * (d + 2)))

/-- `atan x` at precision `p`, for `0 <= x < 0.8`, which `IB >= 0` ensures (R104). -/
def arctanFx (p x : Nat) : Nat := arctanSeries p (x * x / 2 ^ p) (2 * p) 1 x

/-- `sin x` at precision `p`, for `0 <= x < 2`. -/
def sinFx (p x : Nat) : Nat := sineSeries p (x * x / 2 ^ p) p 1 x

/-- `cos x` at precision `p`, for `0 <= x < 1`. -/
def cosFx (p x : Nat) : Nat := sineSeries p (x * x / 2 ^ p) p 0 (2 ^ p)

/-- The fixed-point value `v` as a library function returns it. `cap` is a number the exact value is known not to exceed. -/
def libResult (m : Rounding) (p v cap : Nat) : Nat := min cap (round64 m (v * one64) (2 ^ p))

/-- The library's `atan`; `atan x <= x`. -/
def atan64 (m : Rounding) (x : Nat) : Nat :=
  if isFinite64 x then libResult m (fxPrec x) (arctanFx (fxPrec x) (toFx x)) x else inf64

/-- The library's `sin`; `sin x <= x` and `sin x <= 1`. -/
def sin64 (m : Rounding) (x : Nat) : Nat :=
  if isFinite64 x then libResult m (fxPrec x) (sinFx (fxPrec x) (toFx x)) (min x one64) else inf64

/-- The library's `cos`; `cos x <= 1`, and `cos 0 = 1`. -/
def cos64 (m : Rounding) (x : Nat) : Nat :=
  if isFinite64 x then if x = 0 then one64 else libResult m (fxPrec x) (cosFx (fxPrec x) (toFx x)) one64 else inf64

end Sys2Proof.Machine
end

