-- ==== Sys2Proof/Machine/Numerics.lean ====
section
/-! DEFINITION. The real-valued steps of GENERATE (R102 to R109), evaluated in binary64 in the order the formulas are written
(R111), and the rounding of their results to table entries.

Where the library's rounding of `atan`, `sin` and `cos` cannot change an entry, the entry is the one integer it rounds to. Where it
can, the entry is that of a correctly rounding library or one beside it, by a free value (R111, I3; logs 5 and 6). -/

namespace Sys2Proof.Machine

/-- `table_angle = (pi/2) / TS` (R102). -/
def tableAngle (c : Config) : Nat := scaleDown64 (scaleDown64 pi64 1) c.ibN

/-- `half_table_angle = table_angle / 2` (R102). -/
def halfTableAngle (c : Config) : Nat := scaleDown64 (tableAngle c) 1

/-- `start_shift = ceil(log2(atan(half_table_angle)))` (R103, C1). None where binary64 gives `half_table_angle` too few bits, or
none, to decide it, which needs `IB` above 1000 (log 19). -/
def startShift (c : Config) : Option Int :=
  if ceilLog2 (atan64 .low (halfTableAngle c)) = ceilLog2 (atan64 .high (halfTableAngle c)) then
    ceilLog2 (atan64 .nearest (halfTableAngle c))
  else none

/-- `2^-(i - start_shift)` (R105); the exponent is not negative because `IB >= 1` (R104). -/
def iterTangent (c : Config) (i : Nat) : Nat :=
  match startShift c with
  | some s => powNeg64 ((i : Int) - s).toNat
  | none => inf64

/-- `angle_i = atan(2^-(i - start_shift))` (R105). -/
def iterAngle (c : Config) (m : Rounding) (i : Nat) : Nat := atan64 m (iterTangent c i)

/-- `gain`, the product of `cos(angle_i)` over `i < n`, starting from 1 (R107). -/
def gainUpTo (c : Config) (m : Rounding) : Nat → Nat
  | 0 => one64
  | n + 1 => mul64 (gainUpTo c m n) (cos64 m (iterAngle c m.flip n))

/-- `table_magnitude = SCALE * gain * 2^OE` (R108). -/
def tableMagnitude (c : Config) (m : Rounding) : Nat := scaleUp64 (mul64 (ofNat64 c.scaleN) (gainUpTo c m c.repsN)) c.oeN

/-- The number that `ROT[i]` rounds: `angle_i / (2*pi) * 2^INB * 2^(ZE+i)` (R105). -/
def rotValue (c : Config) (m : Rounding) (i : Nat) : Nat :=
  scaleUp64 (scaleUp64 (div64 (iterAngle c m i) twoPi64) c.inb) (c.zeN + i)

/-- `c_k = table_angle*k + half_table_angle`, the centre angle of sector `k` (R109, R114). -/
def sectorCentre (c : Config) (k : Nat) : Nat := add64 (mul64 (tableAngle c) (ofNat64 k)) (halfTableAngle c)

/-- The number that `LUT[k]` takes the floor of: `table_magnitude * sin(c_k)` (R109), for a given magnitude. -/
def lutValue (c : Config) (magnitude : Nat) (m : Rounding) (k : Nat) : Nat := mul64 magnitude (sin64 m (sectorCentre c k))

/-- `2^(CB+ZE+1) / pi`, which `ROT[i] - 1` does not exceed once rounded (R113). -/
def rotBound (c : Config) : Nat := div64 (scaleUp64 one64 (c.cbN + c.zeN + 1)) pi64

/-- The integer a table entry rounds to. `near` is what a correctly rounding library makes of it, `lo` and `hi` what libraries
that round down and up do. Where all agree, that integer; where not, `near` or the integer beside it (the next binary64 number
above `2^53`), no further than `lo` and `hi`, as the platform's library decides (R111, I3; log 5). -/
def decidedEntry (c : Config) (t : RomTable) (k lo near hi : Nat) : Nat :=
  if near ≤ lo ∧ hi ≤ near then near
  else
    min (max near hi)
      (max (min near lo) (near + c.libmOffset t k % 3 * 2 ^ (bits64 near - 53) - 2 ^ (bits64 near - 53)))

/-- An entry whose value R111 does not give in binary64, limited by what R113 says of it (log 19). -/
def unstatedRot (c : Config) (i : Nat) : Nat :=
  if isFinite64 (rotBound c) then min (c.unstatedEntry .rot i) (toNearestInt (rotBound c)) else c.unstatedEntry .rot i

/-- `ROT[i] = round(...) + 1` (R105). -/
def rotEntry (c : Config) (i : Nat) : SVal :=
  ((if iterTangent c i = 0 || !isFinite64 (rotValue c .high i) then unstatedRot c i
    else decidedEntry c .rot i (toNearestInt (rotValue c .low i)) (toNearestInt (rotValue c .nearest i))
      (toNearestInt (rotValue c .high i)) : Nat) : Int) + 1

/-- `SHIFT[i] = IB + i` (R106). -/
def shiftEntry (c : Config) (i : Nat) : Nat := c.ibN + i

/-- `LUT[k] = floor(...) - 2^(OE-1)` (R109), for the magnitudes that the three roundings of the library give. -/
def lutEntry (c : Config) (magnitude : Rounding → Nat) (k : Nat) : SVal :=
  ((if isFinite64 (lutValue c (magnitude .high) .high k) then
      decidedEntry c .lut k (toFloorInt (lutValue c (magnitude .low) .low k))
        (toFloorInt (lutValue c (magnitude .nearest) .nearest k)) (toFloorInt (lutValue c (magnitude .high) .high k))
    else c.unstatedEntry .lut k : Nat) : Int) - ((2 ^ (c.oeN - 1) : Nat) : Int)

/-- `DIAG_UNIFORM`: every entry of the list is numerically identical (R110). -/
def allIdentical (l : List SVal) : Bool := l.all (fun a => a == l.headD 0)

end Sys2Proof.Machine
end

