-- ==== Sys2Proof/Machine/Operands.lean ====
section
/-! DEFINITION. The operands: the fields of the phase word (R71, R72, R131) and what the load forms from them (R133 to R135). -/

namespace Sys2Proof.Machine

/-- The rotating vector and its residual accumulator, the source's `x`, `y` and `z` (R21 to R23). -/
structure Vec where
  x : SVal
  y : SVal
  z : SVal
  deriving DecidableEq, Repr

/-- The phase the port carries: `INB` bits of it (R73). -/
def portPhase (c : Config) (p : Nat) : Nat := p % c.fullCircle

/-- `q1 = phase[INB-1]`, the upper quadrant bit (R71). -/
def phaseQ1 (c : Config) (p : Nat) : Bool := p.testBit (c.inb - 1)

/-- `q0 = phase[INB-2]`, the lower quadrant bit (R71). -/
def phaseQ0 (c : Config) (p : Nat) : Bool := p.testBit (c.inb - 2)

/-- `index = phase[INB-3:CB]`, unsigned (R71, R72). -/
def phaseIndex (c : Config) (p : Nat) : Nat := p / 2 ^ c.cbN % 2 ^ c.ibN

/-- `res = phase[CB-1:0]`, unsigned; 0 when `CB = 0` (R71). -/
def phaseRes (c : Config) (p : Nat) : Nat := p % 2 ^ c.cbN

/-- The residual operand `r = res << ZE` (R72, R131). -/
def residual (c : Config) (p : Nat) : Int := ((phaseRes c p * 2 ^ c.zeN : Nat) : Int)

/-- Step 3: the residual folded when `q0 = 1` (R133). -/
def foldedResidual (c : Config) (p : Nat) : Int :=
  if phaseQ0 c p then c.zf - residual c p else residual c p

/-- Step 4: the residual re-centred around the sector's midpoint (R134). -/
def startZ (c : Config) (p : Nat) : Int := foldedResidual c p - c.half

/-- The mirrored table address `TS - 1 - index` (R52). -/
def mirrorIndex (c : Config) (p : Nat) : Nat := c.ts - 1 - phaseIndex c p

/-- Step 5: the two table entries of the starting vector, `x` first (R135). -/
def startXY (c : Config) (rom : Rom) (p : Nat) : Except Fault (SVal × SVal) :=
  match readEntry rom.lut (phaseIndex c p), readEntry rom.lut (mirrorIndex c p) with
  | .ok a, .ok b => .ok (if phaseQ0 c p then (a, b) else (b, a))
  | .error f, _ => .error f
  | _, .error f => .error f

/-- Steps 1 and 3 to 5: the vector the load writes (R142). -/
def loadVec (c : Config) (rom : Rom) (p : Nat) : Except Fault Vec :=
  match startXY c rom p with
  | .ok (x, y) => .ok ⟨x, y, startZ c p⟩
  | .error f => .error f

/-- Every component fits its register (R13). -/
def Vec.fits (c : Config) (v : Vec) : Bool :=
  Machine.fits c.wXY v.x && Machine.fits c.wXY v.y && Machine.fits c.wZ v.z

end Sys2Proof.Machine
end

