-- ==== Sys2Proof/Machine/Flags.lean ====
section
/-! DEFINITION. The flags: `fs` and `fc` (R25, R26, R132) and the sign of `z`, which is tested and never stored (R28). -/

namespace Sys2Proof.Machine

/-- `flip_sin = q1` (R26, R132). -/
def flipSin (c : Config) (p : Nat) : Bool := phaseQ1 c p

/-- `flip_cos = q1 xor q0` (R25, R132). -/
def flipCos (c : Config) (p : Nat) : Bool := xor (phaseQ1 c p) (phaseQ0 c p)

/-- `z < 0`, the only condition any operation tests (R28); `sign(0) = +1` (R144). -/
def negative (z : SVal) : Bool := decide (z < 0)

end Sys2Proof.Machine
end

