-- ==== Sys2Proof/Machine/Rotation.lean ====
section
/-! DEFINITION. The Rotation Engine's clocked operations: SINCOS, SINCOS.T, ITER and FINISH (R142 to R145). -/

namespace Sys2Proof.Machine

/-- The registers after a load: the vector, the flips, the trace latch, `i = 0`, `st = RUN`, `valid_q = 0` (R142, R143).
`cos_q` and `sin_q` keep the previous result. -/
def Regs.loaded (r : Regs) (c : Config) (p : Nat) (trace : Bool) (v : Vec) : Regs :=
  { r with
    x := some v.x, y := some v.y, z := some v.z, fc := some (flipCos c p), fs := some (flipSin c p), i := some 0,
    tr := some trace, st := some SeqCode.run, validQ := some false }

/-- The load that SINCOS and SINCOS.T share (R142): the table reads first (`FAULT_ADDR`), then the width check
(`FAULT_OVERFLOW`), in the order of R203. -/
def load (trace : Bool) (phase : Nat) (s : State) : Host.Outcome State Fault Refusal :=
  match loadVec s.cfg s.tables (portPhase s.cfg phase) with
  | .error f => raise f
  | .ok v =>
    if v.fits s.cfg then .next (s.withRegs (s.regs.loaded s.cfg (portPhase s.cfg phase) trace v)) else raise .overflow

/-- SINCOS (R142): the load with `tr <- 0`. -/
def execSincos (phase : Nat) (s : State) : Host.Outcome State Fault Refusal := load false phase s

/-- SINCOS.T (R143): the load with `tr <- 1`. -/
def execSincosT (phase : Nat) (s : State) : Host.Outcome State Fault Refusal := load true phase s

/-- One iteration with shift `k` and angle `rot`: `tx`, `ty` from the values before it, the rotation that the sign of `z`
chooses, then the doubling of `z` (R136, R137, R144; C2, C3). -/
def rotate (k : Nat) (rot : SVal) (v : Vec) : Vec :=
  if negative v.z then ⟨v.x + asr v.y k, v.y - asr v.x k, 2 * (v.z + rot)⟩
  else ⟨v.x - asr v.y k, v.y + asr v.x k, 2 * (v.z - rot)⟩

/-- Iteration `n` on the tables `rom` (R136): `SHIFT[n]` and `ROT[n]` are read, then the vector is rotated. -/
def rotateAt (rom : Rom) (n : Nat) (v : Vec) : Except Fault Vec :=
  match readEntry rom.shift n, readEntry rom.rot n with
  | .ok k, .ok r => .ok (rotate k r v)
  | .error f, _ => .error f
  | _, .error f => .error f

/-- The registers ITER and the trace read: `i` and the vector (R144). -/
def readIter (r : Regs) : Except Fault (Nat × Vec) :=
  match readReg r.i, readReg r.x, readReg r.y, readReg r.z with
  | .ok i, .ok x, .ok y, .ok z => .ok (i, ⟨x, y, z⟩)
  | _, _, _, _ => .error .undefRead

/-- The registers after iteration `i`: the new vector; on the last iteration `st = FIN` and `i` stays, else `i + 1`;
`valid_q = 0` (R144). -/
def Regs.iterated (r : Regs) (c : Config) (i : Nat) (v : Vec) : Regs :=
  if i + 1 = c.repsN then
    { r with x := some v.x, y := some v.y, z := some v.z, st := some SeqCode.fin, validQ := some false }
  else
    { r with x := some v.x, y := some v.y, z := some v.z, i := some (i + 1), validQ := some false }

/-- ITER (R144): register reads, table reads, width checks, in the order of R203. -/
def execIter (s : State) : Host.Outcome State Fault Refusal :=
  match readIter s.regs with
  | .error f => raise f
  | .ok (i, v) =>
    match rotateAt s.tables i v with
    | .error f => raise f
    | .ok v' => if v'.fits s.cfg then .next (s.withRegs (s.regs.iterated s.cfg i v')) else raise .overflow

/-- The value FINISH shifts: the negation when the flip is 1 (R138, R145). -/
def flipped (flip : Bool) (a : SVal) : SVal := if flip then -a else a

/-- One output of FINISH: the flip first, then the guard bits are discarded (R138). -/
def outputOf (c : Config) (flip : Bool) (a : SVal) : SVal := asr (flipped flip a) c.oeN

/-- The registers FINISH reads: `x`, `y`, `fc`, `fs` (R145). -/
def readFinish (r : Regs) : Except Fault ((SVal × SVal) × (Bool × Bool)) :=
  match readReg r.x, readReg r.y, readReg r.fc, readReg r.fs with
  | .ok x, .ok y, .ok fc, .ok fs => .ok ((x, y), (fc, fs))
  | _, _, _, _ => .error .undefRead

/-- The negations FINISH forms fit `W_XY` bits (R145, R201). A value that is not negated is a register's own. -/
def negationFits (c : Config) (flip : Bool) (a : SVal) : Bool := if flip then fits c.wXY (-a) else true

/-- The registers after FINISH: the result, `valid_q = 1`, `st = IDLE` (R145). -/
def Regs.finished (r : Regs) (cosV sinV : SVal) : Regs :=
  { r with cosQ := some cosV, sinQ := some sinV, validQ := some true, st := some SeqCode.idle }

/-- FINISH (R145): register reads, then `FAULT_OVERFLOW` of a negation, then `FAULT_OUT_RANGE` of a result (R203). -/
def execFinish (s : State) : Host.Outcome State Fault Refusal :=
  match readFinish s.regs with
  | .error f => raise f
  | .ok ((x, y), (fc, fs)) =>
    if negationFits s.cfg fc x && negationFits s.cfg fs y then
      if fits s.cfg.wOut (outputOf s.cfg fc x) && fits s.cfg.wOut (outputOf s.cfg fs y) then
        .next (s.withRegs (s.regs.finished (outputOf s.cfg fc x) (outputOf s.cfg fs y)))
      else raise .outRange
    else raise .overflow

end Sys2Proof.Machine
end

