-- ==== Sys2Proof/Machine/SinCos.lean ====
section
/-! DEFINITION. The functional contract `SinCos` (R130 to R140), the configuration's width condition (R201, check 9) and the
bounds of R148, all as functions of the configuration and the tables alone. -/

namespace Sys2Proof.Machine

/-- Iterations `0` to `n - 1` of step 6 (R136, R137). -/
def rotateN (rom : Rom) : Nat → Vec → Except Fault Vec
  | 0, v => .ok v
  | n + 1, v =>
    match rotateN rom n v with
    | .ok w => rotateAt rom n w
    | .error f => .error f

/-- The vector before iteration `n` of the evaluation of phase `p` (`n = REPS`: what FINISH reads). -/
def vecAt (c : Config) (rom : Rom) (p n : Nat) : Except Fault Vec :=
  match loadVec c rom (portPhase c p) with
  | .ok v => rotateN rom n v
  | .error f => .error f

/-- `SinCos(phase) = (cos_value, sin_value)` on exact integers (R130); `FAULT_ADDR` only if a table is too short (R57). -/
def sinCos (c : Config) (rom : Rom) (p : Nat) : Except Fault (SVal × SVal) :=
  match vecAt c rom p c.repsN with
  | .ok v => .ok (outputOf c (flipCos c (portPhase c p)) v.x, outputOf c (flipSin c (portPhase c p)) v.y)
  | .error f => .error f

/-- FINISH on this vector with these flips forms only values that fit (R201). -/
def finishFits (c : Config) (fc fs : Bool) (v : Vec) : Bool :=
  negationFits c fc v.x && negationFits c fs v.y && fits c.wOut (outputOf c fc v.x) && fits c.wOut (outputOf c fs v.y)

/-- From the vector before iteration `n`, the remaining iterations and FINISH form only values that fit (R201). -/
def runFits (c : Config) (rom : Rom) (fc fs : Bool) : Nat → Nat → Vec → Bool
  | 0, _, v => finishFits c fc fs v
  | m + 1, n, v =>
    match rotateAt rom n v with
    | .ok w => w.fits c && runFits c rom fc fs m (n + 1) w
    | .error _ => false

/-- Every value SINCOS, ITER and FINISH write for phase `p`, and every negation FINISH forms, fits its register (R201). -/
def phaseFits (c : Config) (rom : Rom) (p : Nat) : Bool :=
  match loadVec c rom p with
  | .ok v => v.fits c && runFits c rom (flipCos c p) (flipSin c p) c.repsN 0 v
  | .error _ => false

/-- A condition holds of every number below `n`. -/
def allBelow : Nat → (Nat → Bool) → Bool
  | 0, _ => true
  | n + 1, f => f n && allBelow n f

/-- Check 9 of R201: every table entry fits its width, `W_I` bits hold `REPS - 1`, and every phase's run fits. -/
def widthsFit (c : Config) (rom : Rom) : Bool :=
  rom.rot.all (fits c.wZ) && rom.lut.all (fits c.wXY) && rom.shift.all (fun k => decide (k < 2 ^ c.wS))
    && decide (c.repsN - 1 < 2 ^ c.wI) && allBelow c.fullCircle (phaseFits c rom)

/-- `B_n` of R148, the bound on `|z|` before iteration `n`. -/
def boundZ (c : Config) (rom : Rom) : Nat → Int
  | 0 => c.half
  | n + 1 => 2 * max (rom.rot.getD n 0) (boundZ c rom n - rom.rot.getD n 0)

/-- `A_0` of R148: the largest `|LUT[k]|`. -/
def maxAbsLut (rom : Rom) : Int := rom.lut.foldl (fun m e => max m (max e (-e))) 0

/-- `A_n` from `A_(n-1)` and the shift of that iteration (R148). -/
def growXY (k : Nat) (a : Int) : Int := a + asr a k + 1

/-- `A_n` of R148, the bound on `|x|` and `|y|` before iteration `n`. -/
def boundXY (rom : Rom) : Nat → Int
  | 0 => maxAbsLut rom
  | n + 1 => growXY (rom.shift.getD n 0) (boundXY rom n)

end Sys2Proof.Machine
end

