-- ==== Sys2Proof/Machine/Elaborate.lean ====
section
/-! DEFINITION. The elaboration-time operations: the configuration checks (R201), GENERATE (R100) and QUERY (R172). -/

namespace Sys2Proof.Machine

/-- A number is a power of two (check 3 of R201). -/
def isPowerOfTwo (n : Nat) : Bool := decide (n ≠ 0) && decide (2 ^ Nat.log2 n = n)

/-- Checks 1 to 8 of R201, in their order: the first that fails, or none. -/
def configError (c : Config) : Option CfgError :=
  if c.reps ≤ 0 then some .cfgReps
  else if c.ib ≤ 0 then some .cfgIndex
  else if isPowerOfTwo c.ts = false then some .cfgTableSize
  else if c.cb < 0 then some .cfgCordic
  else if c.ze < 0 then some .cfgZe
  else if c.cb + c.ze < 1 then some .cfgCz
  else if c.oe < 1 then some .cfgOe
  else if c.scale < 1 then some .cfgScale
  else none

/-- The rotation-angle table (R105). -/
def generateRot (c : Config) : List SVal := (List.range c.repsN).map (rotEntry c)

/-- The shift table (R106). -/
def generateShift (c : Config) : List Nat := (List.range c.repsN).map (shiftEntry c)

/-- The sine lookup table (R109). -/
def generateLut (c : Config) : List SVal := (List.range c.ts).map (lutEntry c (tableMagnitude c))

/-- The tables and the diagnostic bit that GENERATE produces (R100). -/
def generateRom (c : Config) : Rom where
  rot := generateRot c
  shift := generateShift c
  lut := generateLut c
  diagUniform := allIdentical (generateRot c)

/-- How many informational messages a generation reports: one when `DIAG_UNIFORM = 1`, none otherwise (R176). -/
def messageCount (rom : Rom) : Nat := if rom.diagUniform then 1 else 0

/-- GENERATE (R100, R101, R201): checks 1 to 8 before any table is built, then the tables, then check 9. On success the tables
and the diagnostic are in place and nothing else has changed (R100: "no side effects beyond producing the tables"). Whether a
generation with `DIAG_UNIFORM = 1` that then fails check 9 still reports the message of R176 the spec does not say; here it reports
none (DESIGN CHOICE, log 16). -/
def execGenerate (s : State) : Host.Outcome State Fault Refusal :=
  match configError s.cfg with
  | some e => raise (.cfgError e)
  | none =>
    if widthsFit s.cfg (generateRom s.cfg) then
      .next ((s.withRom (generateRom s.cfg)).withMessages (s.messages + messageCount (generateRom s.cfg)))
    else raise (.cfgError .cfgWidth)

/-- `QUERY() = (OUTPUT_SCALE, FULL_CIRCLE, INPUT_BITS)` (R170 to R172). -/
def queryAnswer (c : Config) : QueryAnswer := ⟨c.scale, c.fullCircle, c.inb⟩

/-- QUERY (R172): the answer, from the configuration record; no register changes and no clock cycle passes. -/
def execQuery (s : State) : Host.Outcome State Fault Refusal := .next (s.withAnswer (queryAnswer s.cfg))

end Sys2Proof.Machine
end

