-- ==== Sys2Proof/Machine/Dispatch.lean ====
section
/-! DEFINITION. The meaning of every instruction, one arm each. -/

namespace Sys2Proof.Machine

def exec (i : Instr) (s : State) : Host.Outcome State Fault Refusal :=
  match i with
  | .reset => Sys2Proof.Machine.execReset s
  | .nop => Sys2Proof.Machine.execNop s
  | .sincos phase => Sys2Proof.Machine.execSincos phase s
  | .sincosT phase => Sys2Proof.Machine.execSincosT phase s
  | .iter => Sys2Proof.Machine.execIter s
  | .finish => Sys2Proof.Machine.execFinish s
  | .rsvd => Sys2Proof.Machine.execRsvd s
  | .generate => Sys2Proof.Machine.execGenerate s
  | .query => Sys2Proof.Machine.execQuery s

end Sys2Proof.Machine
end

