-- ==== Sys2Proof/WellFormed.lean ====
section
/-! DEFINITION. Well-formedness: the operands an encoding can carry, and which operations have an encoding at all. -/

namespace Sys2Proof

/-- A phase operand is in `[0, 2^INB)`, the values the phase port can carry (R71, R73). -/
def Instr.phaseInRange (c : Config) : Instr → Bool
  | .sincos p => decide (p < c.fullCircle)
  | .sincosT p => decide (p < c.fullCircle)
  | .reset => true
  | .nop => true
  | .iter => true
  | .finish => true
  | .rsvd => true
  | .generate => true
  | .query => true

/-- The seven operations of a clock cycle have an encoding in the decode word; GENERATE and QUERY have none (R76, R100,
R172). -/
def Instr.hasEncoding : Instr → Bool
  | .reset => true
  | .nop => true
  | .sincos _ => true
  | .sincosT _ => true
  | .iter => true
  | .finish => true
  | .rsvd => true
  | .generate => false
  | .query => false

/-- An instruction a decode word of configuration `c` can stand for. -/
def Instr.wellFormed (c : Config) (i : Instr) : Bool := i.phaseInRange c && i.hasEncoding

/-- A command whose phase the port can carry without reduction (R73). -/
def Command.wellFormed (c : Config) (cmd : Command) : Bool := decide (cmd.phase < c.fullCircle)

end Sys2Proof
end

