-- ==== Sys2Proof/Decode.lean ====
section
/-! DEFINITION. The command word, the decode word, the decoder, R76's mask and match table, and the encoder. -/

namespace Sys2Proof

/-- The number a Boolean input contributes to a word: bit 1 or 0. -/
def bitVal (b : Bool) : Nat := if b then 1 else 0

/-- `CMD = {rst, start, trace_en, phase}` (R74); the phase is taken modulo `2^INB` (R73). -/
def packCmd (c : Config) (cmd : Command) : Nat :=
  bitVal cmd.rst * 2 ^ (c.inb + 2) + bitVal cmd.start * 2 ^ (c.inb + 1) + bitVal cmd.traceEn * 2 ^ c.inb
    + cmd.phase % 2 ^ c.inb

/-- The command a command word stands for: the fields of R74. -/
def unpackCmd (c : Config) (w : Nat) : Command where
  rst := w.testBit (c.inb + 2)
  start := w.testBit (c.inb + 1)
  traceEn := w.testBit c.inb
  phase := w % 2 ^ c.inb

/-- `DW = {st, CMD}` (R75). -/
def packDW (c : Config) (st : SeqCode) (cmdWord : Nat) : Nat := st.toNat * 2 ^ (c.inb + 3) + cmdWord

/-- The `st` field of a decode word (R75). -/
def dwSeq (c : Config) (w : Nat) : SeqCode := BitVec.ofNat 2 (w / 2 ^ (c.inb + 3))

/-- Why a number is no decode word. -/
inductive DecodeError where
  /-- It has a bit at or above bit `INB + 5` (R75). -/
  | widerThanDecodeWord
  deriving DecidableEq, Repr

/-- The operation that the state code and the command of a cycle select: the first matching line of R75's table. -/
def classify (st : SeqCode) (cmd : Command) : Instr :=
  if cmd.rst then .reset
  else if st = SeqCode.idle then
    if cmd.start then
      if cmd.traceEn then .sincosT cmd.phase else .sincos cmd.phase
    else .nop
  else if st = SeqCode.run then .iter
  else if st = SeqCode.fin then .finish
  else .rsvd

/-- The decoder: total on every number, refusing by name one that is wider than a decode word (R75, R79). -/
def decode (c : Config) (w : Nat) : Except DecodeError Instr :=
  if w < 2 ^ (c.inb + 5) then .ok (classify (dwSeq c w) (unpackCmd c w)) else .error .widerThanDecodeWord

/-- R76's mask for the row of an operation, at any configuration (`st` at bits `INB+4:INB+3`, `rst` at `INB+2`, `start` at
`INB+1`, `trace_en` at `INB`). -/
def opMask (c : Config) : Instr → Option Nat
  | .reset => some (0b00100 * 2 ^ c.inb)
  | .nop => some (0b11110 * 2 ^ c.inb)
  | .sincos _ => some (0b11111 * 2 ^ c.inb)
  | .sincosT _ => some (0b11111 * 2 ^ c.inb)
  | .iter => some (0b11100 * 2 ^ c.inb)
  | .finish => some (0b11100 * 2 ^ c.inb)
  | .rsvd => some (0b11100 * 2 ^ c.inb)
  | .generate => none
  | .query => none

/-- R76's match value for the row of an operation. -/
def opMatch (c : Config) : Instr → Option Nat
  | .reset => some (0b00100 * 2 ^ c.inb)
  | .nop => some 0
  | .sincos _ => some (0b00010 * 2 ^ c.inb)
  | .sincosT _ => some (0b00011 * 2 ^ c.inb)
  | .iter => some (0b01000 * 2 ^ c.inb)
  | .finish => some (0b10000 * 2 ^ c.inb)
  | .rsvd => some (0b11000 * 2 ^ c.inb)
  | .generate => none
  | .query => none

/-- The decode word of an operation with every ignored input 0 (R74 to R76, R80). GENERATE and QUERY have no encoding. -/
def encode (c : Config) : Instr → Option Nat
  | .reset => some (packDW c SeqCode.idle (packCmd c ⟨true, false, false, 0⟩))
  | .nop => some (packDW c SeqCode.idle (packCmd c ⟨false, false, false, 0⟩))
  | .sincos p => some (packDW c SeqCode.idle (packCmd c ⟨false, true, false, p⟩))
  | .sincosT p => some (packDW c SeqCode.idle (packCmd c ⟨false, true, true, p⟩))
  | .iter => some (packDW c SeqCode.run (packCmd c ⟨false, false, false, 0⟩))
  | .finish => some (packDW c SeqCode.fin (packCmd c ⟨false, false, false, 0⟩))
  | .rsvd => some (packDW c SeqCode.rsvd (packCmd c ⟨false, false, false, 0⟩))
  | .generate => none
  | .query => none

/-- The host's numbering of spec/opcode_table.json: `w` is a 37-bit decode word of REF, bit 0 least significant. The bits at
or above `_nbits` (whole bytes) are 0 in `w` already, so the number of bits adds nothing. -/
def decodeTableWord (_nbits w : Nat) : Option Instr :=
  match decode Config.ref w with
  | .ok i => some i
  | .error _ => none

end Sys2Proof
end

