-- ==== Sys2Proof/Machine/Fetch.lean ====
section
/-! DEFINITION. Which operation a step performs: the boot order (R232), the host's next move, and the decode of the cycle's
decode word (R75). -/

namespace Sys2Proof.Machine

/-- The host's next move; a host with no move left presents `rst = start = 0` for ever (R239; log 2). -/
def nextMove (s : State) : HostMove :=
  match s.pending with
  | [] => .cycle Command.idle
  | m :: _ => m

/-- The state with the host's next move taken. -/
def dropMove (s : State) : State := s.withPending s.pending.tail

/-- The operation of a clock cycle with this command (R75): the decode of `DW = {st, CMD}`. When `st` holds no value there is
no decode word: `rst = 1` alone selects RESET, and with `rst = 0` the decode reads a register without a value (R231). -/
def cycleInstr (s : State) (cmd : Command) : Host.Outcome Instr Fault Refusal :=
  match s.regs.st with
  | none => if cmd.rst then .next .reset else .fault .undefRead
  | some st =>
    match decode s.cfg (packDW s.cfg st (packCmd s.cfg cmd)) with
    | .ok i => .next i
    | .error _ => .refused .notADecodeWord

/-- The operation the machine performs next: GENERATE while the tables are not built (R232), then whatever the host's next
move selects. -/
def selectInstr (s : State) : Host.Outcome Instr Fault Refusal :=
  match s.rom with
  | none => .next .generate
  | some _ =>
    match nextMove s with
    | .query => .next .query
    | .cycle cmd => cycleInstr s cmd

/-- The state the operation runs on: the elaboration takes no move of the host, everything else takes one. -/
def consumed (s : State) : State :=
  match s.rom with
  | none => s
  | some _ => dropMove s

/-- A register that holds no value given one; used only to place an operation in `placeWord`. -/
def orElse {α : Type} (r : Option α) (v : α) : Option α :=
  match r with
  | some a => some a
  | none => some v

/-- The registers in the middle of a computation: `RUN` and `FIN` are reached only through a load, which writes `i`, `x`, `y`,
`z`, `fc` and `fs` (R31, R142); those of them that hold no value take the value 0 (log 7). -/
def Regs.inComputation (r : Regs) : Regs :=
  { r with
    i := orElse r.i 0, x := orElse r.x 0, y := orElse r.y 0, z := orElse r.z 0, fc := orElse r.fc false,
    fs := orElse r.fs false }

/-- The state in which the decode word `w` is the next cycle's: its `st` field in `st`, its command as the host's next move
and, where it selects ITER or FINISH, registers that hold a value (log 7). -/
def placeWord (s : State) (w : Nat) : State :=
  let st := dwSeq s.cfg w
  let regs := { s.regs with st := some st }
  let regs := if st = SeqCode.run ∨ st = SeqCode.fin then regs.inComputation else regs
  (s.withRegs regs).withPending (.cycle (unpackCmd s.cfg w) :: s.pending)

end Sys2Proof.Machine
end

