-- ==== Sys2Proof/Machine/Step.lean ====
section
/-! DEFINITION. One step of the machine: one clock cycle, the elaboration, or a QUERY. -/

namespace Sys2Proof.Machine

/-- One step: the selected operation, performed on the state with the host's move taken (R75, R232). -/
def step (s : State) : Host.Outcome State Fault Refusal :=
  match selectInstr s with
  | .next i => exec i (consumed s)
  | .fault f => .fault f
  | .refused r => .refused r

/-- The state with the instruction word of opcode_table.json's numbering placed where the next step takes it from (logs 2
and 7). The bits at or above `_nbits` are 0 in `w` already. -/
def State.withFetchWord (s : State) (_nbits w : Nat) : State := placeWord s w

end Sys2Proof.Machine
end

