-- ==== Sys2Proof/Machine/Assembler.lean ====
section
/-! DEFINITION. The assembler syntax and the pseudo-instructions (R80, R81): a program is one line per clock cycle. -/

namespace Sys2Proof.Machine

/-- A line of a program: the four commands of R80, the three pseudo-instructions of R81, and a line without a command (blank,
or a comment), which takes no cycle. -/
inductive Line where
  | blank
  | reset
  | nop
  | sincos (p : Nat)
  | sincosT (p : Nat)
  | wait (n : Nat)
  | sincosW (p : Nat)
  | sincosTW (p : Nat)
  deriving DecidableEq, Repr

/-- The command of R80's `SINCOS p` (`trace = false`) or `SINCOS.T p` (`trace = true`); a literal outside `[0, 2^INB)` is
refused, not reduced (R80, I1). -/
def assembleStart (c : Config) (trace : Bool) (p : Nat) : Option Command :=
  if p < c.fullCircle then some ⟨false, true, trace, p⟩ else none

/-- The commands of consecutive cycles that a line stands for (R80, R81); `none` where the assembler refuses the line. -/
def assembleLine (c : Config) : Line → Option (List Command)
  | .blank => some []
  | .reset => some [⟨true, false, false, 0⟩]
  | .nop => some [Command.idle]
  | .sincos p => (assembleStart c false p).map (fun cmd => [cmd])
  | .sincosT p => (assembleStart c true p).map (fun cmd => [cmd])
  | .wait n => some (List.replicate n Command.idle)
  | .sincosW p => (assembleStart c false p).map (fun cmd => cmd :: List.replicate (c.repsN + 1) Command.idle)
  | .sincosTW p => (assembleStart c true p).map (fun cmd => cmd :: List.replicate (c.repsN + 1) Command.idle)

/-- A program's commands, one a cycle (R80). -/
def assemble (c : Config) : List Line → Option (List Command)
  | [] => some []
  | l :: ls =>
    match assembleLine c l, assemble c ls with
    | some a, some b => some (a ++ b)
    | _, _ => none

/-- The host's moves that present a program's commands. -/
def movesOf (cmds : List Command) : List HostMove := cmds.map HostMove.cycle

/-- The value of a decimal digit. -/
def decDigit (ch : Char) : Option Nat :=
  if 48 ≤ ch.toNat && ch.toNat ≤ 57 then some (ch.toNat - 48) else none

/-- The value of a hexadecimal digit. -/
def hexDigit (ch : Char) : Option Nat :=
  if 97 ≤ ch.toNat && ch.toNat ≤ 102 then some (ch.toNat - 87)
  else if 65 ≤ ch.toNat && ch.toNat ≤ 70 then some (ch.toNat - 55)
  else decDigit ch

/-- The number that a row of digits stands for in a base. -/
def digitsValue (base : Nat) (digit : Char → Option Nat) : Nat → List Char → Option Nat
  | acc, [] => some acc
  | acc, ch :: cs =>
    match digit ch with
    | some d => digitsValue base digit (acc * base + d) cs
    | none => none

/-- An unsigned integer literal, decimal or `0x` hexadecimal (R80). -/
def parseLiteral : List Char → Option Nat
  | [] => none
  | '0' :: 'x' :: d :: ds => digitsValue 16 hexDigit 0 (d :: ds)
  | d :: ds => digitsValue 10 decDigit 0 (d :: ds)

/-- The text before a comment: `;` begins one (R80). -/
def dropComment : List Char → List Char
  | [] => []
  | ch :: cs => if ch = ';' then [] else ch :: dropComment cs

/-- The words of a text, separated by spaces and tabs. -/
def splitWords : List Char → List (List Char)
  | [] => []
  | ch :: cs =>
    if ch = ' ' ∨ ch = '\t' then [] :: splitWords cs
    else
      match splitWords cs with
      | [] => [[ch]]
      | w :: ws => (ch :: w) :: ws

/-- A line of source text (R80, R81); `none` where it is none of the forms of the two tables. -/
def parseLine (text : List Char) : Option Line :=
  match (splitWords (dropComment text)).filter (fun w => !w.isEmpty) with
  | [] => some .blank
  | [['R', 'E', 'S', 'E', 'T']] => some .reset
  | [['N', 'O', 'P']] => some .nop
  | [['S', 'I', 'N', 'C', 'O', 'S'], p] => (parseLiteral p).map Line.sincos
  | [['S', 'I', 'N', 'C', 'O', 'S', '.', 'T'], p] => (parseLiteral p).map Line.sincosT
  | [['W', 'A', 'I', 'T'], n] => (parseLiteral n).map Line.wait
  | [['S', 'I', 'N', 'C', 'O', 'S', '.', 'W'], p] => (parseLiteral p).map Line.sincosW
  | [['S', 'I', 'N', 'C', 'O', 'S', '.', 'T', 'W'], p] => (parseLiteral p).map Line.sincosTW
  | _ => none

end Sys2Proof.Machine
end

