-- ==== Sys2Proof/Machine/Ports.lean ====
section
/-! DEFINITION. The output ports (R70), as a function of the state during a cycle. An output the spec leaves unspecified is
`none` (R173, R231). -/

namespace Sys2Proof.Machine

/-- What the core drives during a cycle (R70). -/
structure Outputs where
  busy : Option Bool
  done : Option Bool
  cosOut : Option SVal
  sinOut : Option SVal
  traceValid : Option Bool
  traceI : Option Nat
  traceX : Option SVal
  traceY : Option SVal
  traceZ : Option SVal
  diagUniform : Option Bool
  deriving DecidableEq, Repr

/-- `busy = (st != IDLE)` (R34). -/
def Regs.busy (r : Regs) : Option Bool := r.st.map (fun st => decide (st ≠ SeqCode.idle))

/-- `trace_valid = (st = RUN and tr = 1)` (R70, R173). -/
def Regs.traceValid (r : Regs) : Option Bool :=
  match r.st with
  | none => none
  | some st => if st = SeqCode.run then r.tr else some false

/-- A trace value, which has a meaning only while `trace_valid = 1` (R173). -/
def Regs.traced {α : Type} (r : Regs) (v : Option α) : Option α := if r.traceValid = some true then v else none

/-- The outputs of the state (R70, R173, R176). `diag_uniform` is a constant of the built core and needs no reset. -/
def State.outputs (s : State) : Outputs where
  busy := s.regs.busy
  done := s.regs.validQ
  cosOut := s.regs.cosQ
  sinOut := s.regs.sinQ
  traceValid := s.regs.traceValid
  traceI := s.regs.traced s.regs.i
  traceX := s.regs.traced s.regs.x
  traceY := s.regs.traced s.regs.y
  traceZ := s.regs.traced s.regs.z
  diagUniform := s.rom.map Rom.diagUniform

end Sys2Proof.Machine
end

