-- ==== Sys2Proof/Safety.lean ====
section
/-! DEFINITION. What a safe run rests on: a legal configuration with its tables (R201), and the invariant of a core that has
been reset (R29 to R33, R146). -/

namespace Sys2Proof.Machine

/-- A configuration with tables that the elaboration accepts (R51 to R54, R110, R201). The entries of `ROT` and `LUT` are
whatever they are: the ROM contents define the hardware (R111). -/
structure Legal (c : Config) (rom : Rom) : Prop where
  /-- Checks 1 to 8 of R201. -/
  checks : configError c = none
  /-- `ROT` has `REPS` entries (R51). -/
  rotLength : rom.rot.length = c.repsN
  /-- Every entry of `ROT` is at least 1 (R51, R105). -/
  rotPositive : ∀ r ∈ rom.rot, 1 ≤ r
  /-- `SHIFT[i] = IB + i` (R53, R106). -/
  shifts : rom.shift = generateShift c
  /-- `LUT` has `TS` entries (R54). -/
  lutLength : rom.lut.length = c.ts
  /-- `DIAG_UNIFORM` (R110). -/
  diagnostic : rom.diagUniform = allIdentical rom.rot
  /-- Check 9 of R201. -/
  widths : widthsFit c rom = true

/-- The registers hold the vector `v` of an evaluation of phase `p`, and the flips of `p` (R133, R146). -/
def HoldsEvaluation (c : Config) (r : Regs) (p : Nat) (v : Vec) : Prop :=
  r.x = some v.x ∧ r.y = some v.y ∧ r.z = some v.z ∧ r.fc = some (flipCos c p) ∧ r.fs = some (flipSin c p)

/-- The registers hold the evaluation of some phase just before iteration `n` (`n = REPS`: before FINISH) (R146). -/
def Computing (c : Config) (rom : Rom) (r : Regs) (n : Nat) : Prop :=
  ∃ p v, p < c.fullCircle ∧ vecAt c rom p n = .ok v ∧ HoldsEvaluation c r p v

/-- The sequencer is where its code says (R29, R30): idle with `i` in range, or in iteration `i` of some phase, or with all
iterations of some phase done. -/
def SequencerOk (c : Config) (rom : Rom) (r : Regs) : Prop :=
  (r.st = some SeqCode.idle ∧ ∃ i, r.i = some i ∧ i < c.repsN) ∨
  (r.st = some SeqCode.run ∧ ∃ i, r.i = some i ∧ i < c.repsN ∧ Computing c rom r i) ∨
  (r.st = some SeqCode.fin ∧ r.i = some (c.repsN - 1) ∧ Computing c rom r c.repsN)

/-- A register that holds a value holds one that fits its width (R13). -/
def HoldsFitting (n : Nat) (r : Option SVal) : Prop := ∀ v, r = some v → fits n v = true

/-- The registers of a core that has been reset. -/
structure RegsOk (c : Config) (rom : Rom) (r : Regs) : Prop where
  sequencer : SequencerOk c rom r
  /-- `done` is 1 only in a cycle in state IDLE (R33). -/
  done : r.validQ = some true → r.st = some SeqCode.idle
  validHeld : ∃ b, r.validQ = some b
  traceHeld : ∃ b, r.tr = some b
  cosHeld : ∃ v, r.cosQ = some v ∧ fits c.wOut v = true
  sinHeld : ∃ v, r.sinQ = some v ∧ fits c.wOut v = true
  xFits : HoldsFitting c.wXY r.x
  yFits : HoldsFitting c.wXY r.y
  zFits : HoldsFitting c.wZ r.z

/-- THE INVARIANT of a run from reset on an accepted configuration: no operation of such a state can fault (R200, R202). -/
def Inv (s : State) : Prop := ∃ rom, s.rom = some rom ∧ Legal s.cfg rom ∧ RegsOk s.cfg rom s.regs

/-- The weaker condition that every step keeps on any tables and any configuration with `W_OUT >= 1`: the values the signed
registers hold fit their widths (R13), and the sequencer code is not the reserved one (R29, R78). The unsigned counter `i` (R30) is
no part of it. -/
structure WidthsHold (s : State) : Prop where
  seqNotReserved : s.regs.st ≠ some SeqCode.rsvd
  xFits : HoldsFitting s.cfg.wXY s.regs.x
  yFits : HoldsFitting s.cfg.wXY s.regs.y
  zFits : HoldsFitting s.cfg.wZ s.regs.z
  cosFits : HoldsFitting s.cfg.wOut s.regs.cosQ
  sinFits : HoldsFitting s.cfg.wOut s.regs.sinQ

end Sys2Proof.Machine
end

