-- ==== Sys2Proof/Certificates/Slice0/Obligations.lean ====
section
/-! DEFINITION. The statements for the provers. -/

namespace Sys2Proof.Machine

/-! ### Words the statements use -/

/-- A built core in a cycle: its tables are `rom`, the host presents `cmd`, and the sequencer code is `st`. -/
structure InCycle (s : State) (rom : Rom) (cmd : Command) (st : SeqCode) : Prop where
  built : s.rom = some rom
  move : nextMove s = .cycle cmd
  code : s.regs.st = some st

/-- Everything but the registers is as it was. -/
structure KeepsSurroundings (s t : State) : Prop where
  cfg : t.cfg = s.cfg
  rom : t.rom = s.rom
  messages : t.messages = s.messages
  answer : t.answer = s.answer
  pending : t.pending = s.pending

/-- The host's move `k` of a list; a host with no move left presents `rst = start = 0` (log 2). -/
def hostMove (ms : List HostMove) (k : Nat) : HostMove := ms.getD k (.cycle Command.idle)

/-- In each of the first `n` moves the host drives a cycle with `rst = 0`, whatever the other inputs. -/
def NoResetFor (ms : List HostMove) (n : Nat) : Prop := ∀ k < n, ∃ cmd, hostMove ms k = .cycle cmd ∧ cmd.rst = false

/-- Two instructions lie on one row of R76's table: they differ in the phase at most. -/
def sameRow : Instr → Instr → Bool
  | .reset, .reset => true
  | .nop, .nop => true
  | .sincos _, .sincos _ => true
  | .sincosT _, .sincosT _ => true
  | .iter, .iter => true
  | .finish, .finish => true
  | .rsvd, .rsvd => true
  | _, _ => false

/-- `sign(z)`: -1 if `z < 0`, +1 otherwise (R14). -/
def signOf (z : Int) : Int := if z < 0 then -1 else 1

/-- The registers hold the iteration number and the vector. -/
def HoldsVec (r : Regs) (i : Nat) (v : Vec) : Prop :=
  r.i = some i ∧ r.x = some v.x ∧ r.y = some v.y ∧ r.z = some v.z

/-- The state just after a command of phase `p` has been accepted and `k` iterations are done, seen from the outputs. -/
def doneSteps (k : Nat) (s : State) : Host.Outcome State Fault Refusal := Host.Core.run Sys2Proof.core k s

end Sys2Proof.Machine

open Sys2Proof Sys2Proof.Machine

/-! ### Reset, power-up, boot -/

/-- R230. RESET completes in every state and writes exactly the reset values; it is selected by `rst = 1` in any state of a
built core and with any other input. The tables, the configuration and `diag_uniform` are not affected. In the next cycle
`busy`, `done`, `cos_out` and `sin_out` are 0. -/
def Obligations.ResetWritesResetValues : Prop :=
  ∀ s : State, ∃ t, exec .reset s = .next t ∧
    t.regs = { st := some 0#2, i := some 0, x := none, y := none, z := none, fc := none, fs := none, tr := some false,
               cosQ := some 0, sinQ := some 0, validQ := some false } ∧
    KeepsSurroundings s t ∧
    t.outputs.busy = some false ∧ t.outputs.done = some false ∧ t.outputs.cosOut = some 0 ∧ t.outputs.sinOut = some 0 ∧
    t.outputs.diagUniform = s.outputs.diagUniform ∧
    ∀ (rom : Rom) (cmd : Command), s.rom = some rom → nextMove s = .cycle cmd → cmd.rst = true →
      step s = exec .reset (dropMove s)

/-- The reset state has the reset values of R38's table. That it is REF's core is the model's choice (log 4). -/
def Obligations.ResetStateHasResetColumn : Prop :=
  State.reset.regs.st = some 0#2 ∧ State.reset.regs.i = some 0 ∧ State.reset.regs.x = none ∧ State.reset.regs.y = none ∧
    State.reset.regs.z = none ∧ State.reset.regs.fc = none ∧ State.reset.regs.fs = none ∧
    State.reset.regs.tr = some false ∧ State.reset.regs.cosQ = some 0 ∧ State.reset.regs.sinQ = some 0 ∧
    State.reset.regs.validQ = some false ∧ State.reset.pending = [] ∧ State.reset.cfg = Config.ref

/-- R231. At power-up no register and no output but `diag_uniform` has a value, and a cycle with `rst = 0` is
`FAULT_UNDEF_READ`. -/
def Obligations.PowerUpHoldsNoValue : Prop :=
  ∀ (c : Config) (rom : Rom) (cmd : Command) (ms : List HostMove),
    (State.powerUp c rom).regs = ⟨none, none, none, none, none, none, none, none, none, none, none⟩ ∧
    (State.powerUp c rom).outputs = ⟨none, none, none, none, none, none, none, none, none, some rom.diagUniform⟩ ∧
    (cmd.rst = false → step ((State.powerUp c rom).withPending (.cycle cmd :: ms)) = .fault .undefRead)

/-- The boot order of R232: a core whose tables are not built performs GENERATE, takes no move of the host, and is then a
built core whose registers are as they were. -/
def Obligations.GenerationComesFirst : Prop :=
  ∀ s : State, s.rom = none → step s = exec .generate s ∧
    ∀ t, step s = .next t → t.rom = some (generateRom s.cfg) ∧ t.regs = s.regs ∧ t.pending = s.pending

/-- R56. No operation of a built core writes a table, RESET included. -/
def Obligations.TablesNeverChange : Prop :=
  ∀ (s t : State) (rom : Rom), s.rom = some rom →
    (step s = .next t → t.rom = some rom) ∧ (∀ i, i ≠ .generate → exec i s = .next t → t.rom = some rom)

/-- R24 and the "written by" column of R38. An instruction that completes changes a register only if that register's row
names it: the flips and the vector are the loads' (the vector ITER's too), `tr` the loads', `i` and `st` the sequencer's, the
result FINISH's; RESET writes all of them and GENERATE and QUERY none. -/
def Obligations.RegistersAreWrittenByTheirRowOnly : Prop :=
  ∀ (i : Instr) (s t : State), exec i s = .next t → i ≠ .reset →
    let isLoad := ∃ p, i = .sincos p ∨ i = .sincosT p
    (t.regs.st ≠ s.regs.st → isLoad ∨ i = .iter ∨ i = .finish) ∧
    (t.regs.i ≠ s.regs.i → isLoad ∨ i = .iter) ∧
    (t.regs.x ≠ s.regs.x ∨ t.regs.y ≠ s.regs.y ∨ t.regs.z ≠ s.regs.z → isLoad ∨ i = .iter) ∧
    (t.regs.fc ≠ s.regs.fc ∨ t.regs.fs ≠ s.regs.fs → isLoad) ∧
    (t.regs.tr ≠ s.regs.tr → isLoad) ∧
    (t.regs.cosQ ≠ s.regs.cosQ ∨ t.regs.sinQ ≠ s.regs.sinQ → i = .finish) ∧
    (t.regs.validQ ≠ s.regs.validQ → i ≠ .generate ∧ i ≠ .query)

/-- R235. `cos_out` and `sin_out` hold the last result through every cycle of a built core but a FINISH cycle and a reset. -/
def Obligations.ResultsHoldUntilTheNextFinish : Prop :=
  ∀ (s t : State) (rom : Rom) (cmd : Command) (st : SeqCode), InCycle s rom cmd st → step s = .next t → cmd.rst = false →
    st ≠ 2#2 → t.outputs.cosOut = s.outputs.cosOut ∧ t.outputs.sinOut = s.outputs.sinOut

/-- Nothing in the machine changes the configuration record (R5). -/
def Obligations.ConfigurationNeverChanges : Prop :=
  ∀ (s t : State), (∀ i, exec i s = .next t → t.cfg = s.cfg) ∧ (step s = .next t → t.cfg = s.cfg)

/-! ### The decode word -/

/-- R74. The command word packs the four inputs, loses none of them, and every word of `INB + 3` bits is one; REF's has 35
bits with `rst` at bit 34, TINY's 11 with `rst` at bit 10. -/
def Obligations.CommandWordPacksTheInputs : Prop :=
  (∀ (c : Config) (cmd : Command), cmd.wellFormed c = true →
    packCmd c cmd < 2 ^ (c.inb + 3) ∧ unpackCmd c (packCmd c cmd) = cmd ∧
    (packCmd c cmd).testBit (c.inb + 2) = cmd.rst ∧ (packCmd c cmd).testBit (c.inb + 1) = cmd.start ∧
    (packCmd c cmd).testBit c.inb = cmd.traceEn ∧ packCmd c cmd % 2 ^ c.inb = cmd.phase) ∧
  (∀ (c : Config) (w : Nat), w < 2 ^ (c.inb + 3) → packCmd c (unpackCmd c w) = w) ∧
  Config.ref.inb + 3 = 35 ∧ Config.ref.inb + 2 = 34 ∧ Config.ref.inb + 1 = 33 ∧ Config.ref.inb = 32 ∧
  Config.tiny.inb + 3 = 11 ∧ Config.tiny.inb + 2 = 10 ∧ Config.tiny.inb + 1 = 9 ∧ Config.tiny.inb = 8

/-- R75. Every word of `INB + 5` bits decodes to exactly one operation, chosen by the first matching line of the table. -/
def Obligations.DecodeFollowsTheTable : Prop :=
  ∀ (c : Config) (w : Nat), w < 2 ^ (c.inb + 5) →
    let st := w / 2 ^ (c.inb + 3)
    let rst := w.testBit (c.inb + 2)
    let start := w.testBit (c.inb + 1)
    let traceEn := w.testBit c.inb
    let phase := w % 2 ^ c.inb
    (rst = true → decode c w = .ok .reset) ∧
    (rst = false ∧ st = 0 ∧ start = false → decode c w = .ok .nop) ∧
    (rst = false ∧ st = 0 ∧ start = true ∧ traceEn = false → decode c w = .ok (.sincos phase)) ∧
    (rst = false ∧ st = 0 ∧ start = true ∧ traceEn = true → decode c w = .ok (.sincosT phase)) ∧
    (rst = false ∧ st = 1 → decode c w = .ok .iter) ∧
    (rst = false ∧ st = 2 → decode c w = .ok .finish) ∧
    (rst = false ∧ st = 3 → decode c w = .ok .rsvd) ∧
    (rst = true ∨ st = 0 ∨ st = 1 ∨ st = 2 ∨ st = 3)

/-- R76. A decode word performs the operation of a row exactly when `DW & mask = match`; the rows are disjoint and cover every
word; REF's and TINY's masks and match values are those of the table. -/
def Obligations.MaskAndMatchSelectTheRow : Prop :=
  (∀ (c : Config) (w : Nat) (i : Instr) (m v : Nat), w < 2 ^ (c.inb + 5) → opMask c i = some m → opMatch c i = some v →
    (w &&& m = v ↔ ∃ j, decode c w = .ok j ∧ sameRow i j = true)) ∧
  (∀ (c : Config) (w : Nat), w < 2 ^ (c.inb + 5) →
    ∃ i m v, opMask c i = some m ∧ opMatch c i = some v ∧ w &&& m = v) ∧
  (∀ (c : Config) (w : Nat) (i j : Instr) (m v m' v' : Nat), w < 2 ^ (c.inb + 5) → opMask c i = some m →
    opMatch c i = some v → opMask c j = some m' → opMatch c j = some v' → w &&& m = v → w &&& m' = v' →
    sameRow i j = true) ∧
  [Instr.reset, .nop, .sincos 0, .sincosT 0, .iter, .finish, .rsvd].map (fun i => (opMask Config.ref i, opMatch Config.ref i)) =
    [(some 0x0400000000, some 0x0400000000), (some 0x1E00000000, some 0x0000000000),
     (some 0x1F00000000, some 0x0200000000), (some 0x1F00000000, some 0x0300000000),
     (some 0x1C00000000, some 0x0800000000), (some 0x1C00000000, some 0x1000000000),
     (some 0x1C00000000, some 0x1800000000)] ∧
  [Instr.reset, .nop, .sincos 0, .sincosT 0, .iter, .finish, .rsvd].map (fun i => (opMask Config.tiny i, opMatch Config.tiny i)) =
    [(some 0x0400, some 0x0400), (some 0x1E00, some 0x0000), (some 0x1F00, some 0x0200), (some 0x1F00, some 0x0300),
     (some 0x1C00, some 0x0800), (some 0x1C00, some 0x1000), (some 0x1C00, some 0x1800)]

/-- Decode and encode agree: in every configuration every well-formed instruction with an encoding, at every phase the port
carries, is encoded by a decode word and decodes back to itself. -/
def Obligations.DecodeOfEncodeIsTheInstruction : Prop :=
  ∀ (c : Config) (i : Instr), i.wellFormed c = true → ∃ w, encode c i = some w ∧ w < 2 ^ (c.inb + 5) ∧ decode c w = .ok i

/-- Words written out from the spec decode to the instructions they stand for (R74 to R76, and programs P1 to P5 of
95_test_vectors.md section 5; `0x1263` stands in P3, `0x0C00` in P4). That a number of 38 bits, which is wider than a decode word
of REF, is answered with an error is the model's own choice (log 13). -/
def Obligations.WrittenOutWordsDecode : Prop :=
  decode Config.tiny 0x0200 = .ok (.sincos 0) ∧ decode Config.tiny 0x0364 = .ok (.sincosT 100) ∧
  decode Config.tiny 0x0800 = .ok .iter ∧ decode Config.tiny 0x1263 = .ok .finish ∧
  decode Config.tiny 0x0C00 = .ok .reset ∧ decode Config.tiny 0x01FF = .ok .nop ∧ decode Config.tiny 0x1800 = .ok .rsvd ∧
  decode Config.ref 0x0240000000 = .ok (.sincos 1073741824) ∧
  decode Config.ref 0x2000000000 = .error .widerThanDecodeWord

/-- A step of a built core in a cycle performs the operation its decode word decodes to, on the state with the host's move
taken and nothing else changed. -/
def Obligations.StepRunsTheDecodedInstruction : Prop :=
  ∀ (s : State) (rom : Rom) (cmd : Command) (st : SeqCode) (i : Instr), InCycle s rom cmd st →
    decode s.cfg (packDW s.cfg st (packCmd s.cfg cmd)) = .ok i →
    step s = exec i (dropMove s) ∧ (dropMove s).regs = s.regs ∧ (dropMove s).cfg = s.cfg ∧ (dropMove s).rom = s.rom ∧
      (dropMove s).messages = s.messages ∧ (dropMove s).answer = s.answer ∧ (dropMove s).pending = s.pending.tail

/-- The same for the QUERY move of the instantiating design (the model's own move, log 3). -/
def Obligations.StepRunsTheQuery : Prop :=
  ∀ (s : State) (rom : Rom), s.rom = some rom → nextMove s = .query → step s = exec .query (dropMove s)

/-- Inputs that the cycle's operation does not read are ignored: NOP ignores `trace_en` and `phase`; ITER, FINISH and RSVD
ignore `start`, `trace_en` and `phase`. -/
def Obligations.UnreadInputsAreIgnored : Prop :=
  ∀ (s : State) (rom : Rom) (st : SeqCode) (cmd cmd' : Command) (ms : List HostMove),
    s.rom = some rom → s.regs.st = some st → cmd.rst = false → cmd'.rst = false →
    (st = 0#2 → cmd.start = false ∧ cmd'.start = false) →
    step (s.withPending (.cycle cmd :: ms)) = step (s.withPending (.cycle cmd' :: ms))

/-- R73. A phase outside the port's range acts as its value modulo `2^INB`, in the command word, in the load and in `SinCos`.
A phase the port carries is itself. -/
def Obligations.PhaseIsTakenModuloTheCircle : Prop :=
  ∀ (c : Config) (rom : Rom) (s : State) (p : Nat) (r b t : Bool),
    packCmd c ⟨r, b, t, p⟩ = packCmd c ⟨r, b, t, p % 2 ^ c.inb⟩ ∧
    exec (.sincos p) s = exec (.sincos (p % 2 ^ s.cfg.inb)) s ∧ exec (.sincosT p) s = exec (.sincosT (p % 2 ^ s.cfg.inb)) s ∧
    sinCos c rom p = sinCos c rom (p % 2 ^ c.inb) ∧ portPhase c p < 2 ^ c.inb ∧ (p < 2 ^ c.inb → portPhase c p = p)

/-! ### The phase word and the load -/

/-- R71. The phase word is its four fields, most significant first, each of its width; REF's and TINY's field positions. -/
def Obligations.PhaseFieldsPartitionThePhase : Prop :=
  (∀ (c : Config) (p : Nat), p < 2 ^ c.inb →
    p = bitVal (phaseQ1 c p) * 2 ^ (c.inb - 1) + bitVal (phaseQ0 c p) * 2 ^ (c.inb - 2) + phaseIndex c p * 2 ^ c.cbN
          + phaseRes c p ∧
    phaseIndex c p < 2 ^ c.ibN ∧ phaseRes c p < 2 ^ c.cbN ∧
    p / 2 ^ (c.inb - 2) = 2 * bitVal (phaseQ1 c p) + bitVal (phaseQ0 c p) ∧ (c.cbN = 0 → phaseRes c p = 0)) ∧
  (∀ p : Nat, p < 2 ^ 32 → phaseQ1 Config.ref p = p.testBit 31 ∧ phaseQ0 Config.ref p = p.testBit 30 ∧
    phaseIndex Config.ref p = p / 2 ^ 19 % 2 ^ 11 ∧ phaseRes Config.ref p = p % 2 ^ 19) ∧
  (∀ p : Nat, p < 2 ^ 8 → phaseQ1 Config.tiny p = p.testBit 7 ∧ phaseQ0 Config.tiny p = p.testBit 6 ∧
    phaseIndex Config.tiny p = p / 2 ^ 4 % 2 ^ 2 ∧ phaseRes Config.tiny p = p % 2 ^ 4)

/-- R132. The flips are the quadrant's: quadrant 0 flips neither output, 1 cosine only, 2 both, 3 sine only. -/
def Obligations.FlipsFollowTheQuadrant : Prop :=
  ∀ (c : Config) (p : Nat), p < 2 ^ c.inb →
    flipSin c p = phaseQ1 c p ∧ flipCos c p = xor (phaseQ1 c p) (phaseQ0 c p) ∧
    (p / 2 ^ (c.inb - 2) = 0 → flipCos c p = false ∧ flipSin c p = false) ∧
    (p / 2 ^ (c.inb - 2) = 1 → flipCos c p = true ∧ flipSin c p = false) ∧
    (p / 2 ^ (c.inb - 2) = 2 → flipCos c p = true ∧ flipSin c p = true) ∧
    (p / 2 ^ (c.inb - 2) = 3 → flipCos c p = false ∧ flipSin c p = true)

/-- R133, R134. The residual operand is folded to `ZF - r` in odd quadrants (0 to `ZF` itself) and re-centred by `HALF`, which
leaves `z` in the range the rule gives for each half. -/
def Obligations.ResidualIsFoldedAndCentred : Prop :=
  ∀ (c : Config) (p : Nat), configError c = none →
    (phaseQ0 c p = true → foldedResidual c p = 2 ^ (c.cbN + c.zeN) - residual c p) ∧
    (phaseQ0 c p = true → phaseRes c p = 0 → foldedResidual c p = c.zf) ∧
    (phaseQ0 c p = false → foldedResidual c p = residual c p) ∧
    residual c p = (phaseRes c p : Int) * 2 ^ c.zeN ∧
    startZ c p = foldedResidual c p - 2 ^ (c.cbN + c.zeN - 1) ∧
    (phaseQ0 c p = false → -c.half ≤ startZ c p ∧ startZ c p ≤ c.half - 2 ^ c.zeN) ∧
    (phaseQ0 c p = true → -c.half + 2 ^ c.zeN ≤ startZ c p ∧ startZ c p ≤ c.half)

/-- Every table address an operation of a legal core forms is inside its table: the index, its mirror, and the iteration
number (R57). An iteration number outside is `FAULT_ADDR`. -/
def Obligations.AddressesAreInRange : Prop :=
  ∀ (s : State) (rom : Rom), s.rom = some rom → Legal s.cfg rom →
    (∀ p, phaseIndex s.cfg p < rom.lut.length ∧ mirrorIndex s.cfg p < rom.lut.length ∧
      phaseIndex s.cfg p + mirrorIndex s.cfg p = s.cfg.ts - 1) ∧
    (∀ i < s.cfg.repsN, i < rom.rot.length ∧ i < rom.shift.length) ∧
    (∀ i v, HoldsVec s.regs i v → s.cfg.repsN ≤ i → exec .iter s = .fault .addr)

/-- R142. A cycle in state IDLE with `rst = 0`, `start = 1` and `trace_en = 0` is SINCOS of its phase. As an equation: where the
two table entries exist, SINCOS writes what the rule's pseudocode says if it fits and is `FAULT_OVERFLOW` if not. Everything
else of the state is unchanged. -/
def Obligations.SincosWritesTheLoad : Prop :=
  (∀ (s : State) (rom : Rom) (cmd : Command), InCycle s rom cmd 0#2 → cmd.rst = false → cmd.start = true →
    cmd.traceEn = false → step s = exec (.sincos cmd.phase) (dropMove s)) ∧
  ∀ (s : State) (rom : Rom) (phase a b : Nat) (ea eb : Int), s.rom = some rom →
    let p := phase % 2 ^ s.cfg.inb
    let z := (if phaseQ0 s.cfg p then s.cfg.zf - residual s.cfg p else residual s.cfg p) - s.cfg.half
    let x := if phaseQ0 s.cfg p then ea else eb
    let y := if phaseQ0 s.cfg p then eb else ea
    a = phaseIndex s.cfg p → b = s.cfg.ts - 1 - a → rom.lut[a]? = some ea → rom.lut[b]? = some eb →
    exec (.sincos phase) s =
      if fits s.cfg.wXY x && fits s.cfg.wXY y && fits s.cfg.wZ z then
        .next { s with regs := { s.regs with
          fs := some (phaseQ1 s.cfg p), fc := some (xor (phaseQ1 s.cfg p) (phaseQ0 s.cfg p)), z := some z, x := some x,
          y := some y, i := some 0, tr := some false, st := some 1#2, validQ := some false } }
      else .fault .overflow

/-- SINCOS completes on every state of a legal core, at every phase, in the state its load gives (R142, R200). -/
def Obligations.SincosCompletesOnALegalCore : Prop :=
  ∀ (s : State) (rom : Rom) (phase : Nat), s.rom = some rom → Legal s.cfg rom →
    ∃ x y z, exec (.sincos phase) s = .next { s with regs := { s.regs with
        fs := some (flipSin s.cfg (portPhase s.cfg phase)), fc := some (flipCos s.cfg (portPhase s.cfg phase)),
        z := some z, x := some x, y := some y, i := some 0, tr := some false, st := some 1#2, validQ := some false } } ∧
      loadVec s.cfg rom (portPhase s.cfg phase) = .ok ⟨x, y, z⟩

/-- R143. A cycle in state IDLE with `rst = 0`, `start = 1` and `trace_en = 1` is SINCOS.T of its phase. SINCOS.T does what
SINCOS does, but for `tr`, which it writes 1: it completes on the same states, and stops with the same fault on the others. -/
def Obligations.SincosTDiffersOnlyInTheTraceLatch : Prop :=
  (∀ (s : State) (rom : Rom) (cmd : Command), InCycle s rom cmd 0#2 → cmd.rst = false → cmd.start = true →
    cmd.traceEn = true → step s = exec (.sincosT cmd.phase) (dropMove s)) ∧
  ∀ (s : State) (phase : Nat),
    (∀ t, exec (.sincos phase) s = .next t ↔
      t.regs.tr = some false ∧ exec (.sincosT phase) s = .next { t with regs := { t.regs with tr := some true } }) ∧
    (∀ f, exec (.sincos phase) s = .fault f ↔ exec (.sincosT phase) s = .fault f) ∧
    (∀ r, exec (.sincosT phase) s ≠ .refused r)

/-- SINCOS.T completes on every state of a legal core, at every phase (R143, R200). -/
def Obligations.SincosTCompletesOnALegalCore : Prop :=
  ∀ (s : State) (rom : Rom) (phase : Nat), s.rom = some rom → Legal s.cfg rom →
    ∃ x y z, exec (.sincosT phase) s = .next { s with regs := { s.regs with
        fs := some (flipSin s.cfg (portPhase s.cfg phase)), fc := some (flipCos s.cfg (portPhase s.cfg phase)),
        z := some z, x := some x, y := some y, i := some 0, tr := some true, st := some 1#2, validQ := some false } } ∧
      loadVec s.cfg rom (portPhase s.cfg phase) = .ok ⟨x, y, z⟩

/-! ### ITER, FINISH, NOP, RSVD -/

/-- R136, R137. One rotation, with `tx` and `ty` from the values before it and `s = sign(z)`, then the doubling. -/
def Obligations.RotationIsThePseudocode : Prop :=
  ∀ (rom : Rom) (n k : Nat) (r : Int) (v : Vec), rom.shift[n]? = some k → rom.rot[n]? = some r →
    let tx := v.x / 2 ^ k
    let ty := v.y / 2 ^ k
    let s := signOf v.z
    rotateAt rom n v = .ok ⟨v.x - s * ty, v.y + s * tx, 2 * (v.z - s * r)⟩ ∧
    (v.z < 0 → rotateAt rom n v = .ok ⟨v.x + ty, v.y - tx, 2 * (v.z + r)⟩) ∧
    (0 ≤ v.z → rotateAt rom n v = .ok ⟨v.x - ty, v.y + tx, 2 * (v.z - r)⟩)

/-- R144. A cycle in state RUN with `rst = 0` is ITER, whatever the other inputs. As an equation: where `i` and the vector hold
values and the entries exist, ITER writes what the rule's pseudocode says if it fits and is `FAULT_OVERFLOW` if not. Everything
else of the state is unchanged. -/
def Obligations.IterWritesTheRotation : Prop :=
  (∀ (s : State) (rom : Rom) (cmd : Command), InCycle s rom cmd 1#2 → cmd.rst = false → step s = exec .iter (dropMove s)) ∧
  ∀ (s : State) (rom : Rom) (i k : Nat) (r : Int) (v : Vec), s.rom = some rom → 1 ≤ s.cfg.repsN → HoldsVec s.regs i v →
    rom.shift[i]? = some k → rom.rot[i]? = some r →
    let tx := v.x / 2 ^ k
    let ty := v.y / 2 ^ k
    let x' := if v.z < 0 then v.x + ty else v.x - ty
    let y' := if v.z < 0 then v.y - tx else v.y + tx
    let zt := if v.z < 0 then v.z + r else v.z - r
    exec .iter s =
      if fits s.cfg.wXY x' && fits s.cfg.wXY y' && fits s.cfg.wZ (2 * zt) then
        .next { s with regs := { s.regs with
          x := some x', y := some y', z := some (2 * zt),
          st := if i = s.cfg.repsN - 1 then some 2#2 else s.regs.st,
          i := if i = s.cfg.repsN - 1 then some i else some (i + 1), validQ := some false } }
      else .fault .overflow

/-- ITER completes in every iteration of an evaluation on a legal core, with the next vector of the same phase's evaluation and
the same flips (R144, R200). -/
def Obligations.IterCompletesInAnEvaluation : Prop :=
  ∀ (s : State) (rom : Rom) (i p : Nat) (v : Vec), s.rom = some rom → Legal s.cfg rom → s.regs.i = some i →
    i < s.cfg.repsN → p < 2 ^ s.cfg.inb → vecAt s.cfg rom p i = .ok v → HoldsEvaluation s.cfg s.regs p v →
    ∃ t w, exec .iter s = .next t ∧ vecAt s.cfg rom p (i + 1) = .ok w ∧ HoldsEvaluation s.cfg t.regs p w ∧
      t.regs.validQ = some false ∧
      (i + 1 = s.cfg.repsN → t.regs.st = some 2#2 ∧ t.regs.i = some i) ∧
      (i + 1 < s.cfg.repsN → t.regs.st = s.regs.st ∧ t.regs.i = some (i + 1))

/-- R138. The outputs are the flipped coordinates without their guard bits: the negation first, the arithmetic shift second, so
that a negated value that is not a multiple of `2^OE` gives one less than the negated output. -/
def Obligations.OutputNegatesThenShifts : Prop :=
  ∀ (c : Config) (rom : Rom) (p : Nat) (v : Vec), vecAt c rom p c.repsN = .ok v →
    sinCos c rom p = .ok ((if flipCos c (portPhase c p) then -v.x else v.x) / 2 ^ c.oeN,
      (if flipSin c (portPhase c p) then -v.y else v.y) / 2 ^ c.oeN) ∧
    (∀ a : Int, ¬ (2 : Int) ^ c.oeN ∣ a → outputOf c true a = -(outputOf c false a) - 1)

/-- R145. A cycle in state FIN with `rst = 0` is FINISH, whatever the other inputs. As an equation: where `x`, `y`, `fc` and `fs`
hold values, FINISH writes what the rule's pseudocode says; a negation that does not fit is `FAULT_OVERFLOW`, a result that
does not fit is `FAULT_OUT_RANGE`. Everything else is unchanged. -/
def Obligations.FinishWritesTheResult : Prop :=
  (∀ (s : State) (rom : Rom) (cmd : Command), InCycle s rom cmd 2#2 → cmd.rst = false → step s = exec .finish (dropMove s)) ∧
  ∀ (s : State) (x y : Int) (fc fs : Bool), s.regs.x = some x → s.regs.y = some y → s.regs.fc = some fc →
    s.regs.fs = some fs →
    let c := (if fc then -x else x) / 2 ^ s.cfg.oeN
    let v := (if fs then -y else y) / 2 ^ s.cfg.oeN
    exec .finish s =
      if (fc = true → fits s.cfg.wXY (-x) = true) ∧ (fs = true → fits s.cfg.wXY (-y) = true) then
        if fits s.cfg.wOut c = true ∧ fits s.cfg.wOut v = true then
          .next { s with regs := { s.regs with cosQ := some c, sinQ := some v, validQ := some true, st := some 0#2 } }
        else .fault .outRange
      else .fault .overflow

/-- FINISH completes at the end of every evaluation on a legal core, with `SinCos` of the phase whose evaluation the registers
hold (R145, R146). -/
def Obligations.FinishCompletesAfterAnEvaluation : Prop :=
  ∀ (s : State) (rom : Rom) (p : Nat) (v : Vec), Legal s.cfg rom → p < 2 ^ s.cfg.inb →
    vecAt s.cfg rom p s.cfg.repsN = .ok v → HoldsEvaluation s.cfg s.regs p v →
    ∃ a b, sinCos s.cfg rom p = .ok (a, b) ∧
      exec .finish s = .next { s with regs := { s.regs with
        cosQ := some a, sinQ := some b, validQ := some true, st := some 0#2 } }

/-- R141. A cycle in state IDLE with `rst = 0` and `start = 0` is NOP, whatever `trace_en` and `phase`: it clears `valid_q` and
changes no other register; `exec .nop` does so in every state. -/
def Obligations.NopOnlyClearsValid : Prop :=
  (∀ s : State, exec .nop s = .next { s with regs := { s.regs with validQ := some false } }) ∧
  (∀ (s : State) (rom : Rom) (cmd : Command), InCycle s rom cmd 0#2 → cmd.rst = false → cmd.start = false →
    step s = exec .nop (dropMove s))

/-- The reserved code: RSVD is `FAULT_RSVD_STATE` on every state, a cycle with `st = 0b11` and `rst = 0` is RSVD whatever the
other inputs, and no completed step of a built core in another state leads to that code (R29, R78). -/
def Obligations.ReservedCodeFaultsAndIsUnreachable : Prop :=
  (∀ s : State, exec .rsvd s = .fault .rsvdState) ∧
  (∀ (s : State) (rom : Rom) (cmd : Command), InCycle s rom cmd 3#2 → cmd.rst = false → step s = .fault .rsvdState) ∧
  (∀ (s : State) (rom : Rom) (cmd : Command), InCycle s rom cmd 3#2 → cmd.rst = true →
    ∃ t, step s = .next t ∧ t.regs.st = some 0#2) ∧
  (∀ s t : State, s.regs.st ≠ some 3#2 → step s = .next t → t.regs.st ≠ some 3#2)

/-- The order of the faults (R203): a register without a value first, then an address, then a width. With `rst = 1` a built
core raises none. -/
def Obligations.FaultsAreReportedInOrder : Prop :=
  (∀ s : State, (s.regs.i = none ∨ s.regs.x = none ∨ s.regs.y = none ∨ s.regs.z = none) →
    exec .iter s = .fault .undefRead) ∧
  (∀ (s : State) (rom : Rom) (i : Nat) (v : Vec), s.rom = some rom → HoldsVec s.regs i v →
    (rom.shift.length ≤ i ∨ rom.rot.length ≤ i) → exec .iter s = .fault .addr) ∧
  (∀ s : State, (s.regs.x = none ∨ s.regs.y = none ∨ s.regs.fc = none ∨ s.regs.fs = none) →
    exec .finish s = .fault .undefRead) ∧
  (∀ (s : State) (rom : Rom) (p : Nat), s.rom = some rom →
    (rom.lut.length ≤ phaseIndex s.cfg (portPhase s.cfg p) ∨ rom.lut.length ≤ mirrorIndex s.cfg (portPhase s.cfg p)) →
    exec (.sincos p) s = .fault .addr ∧ exec (.sincosT p) s = .fault .addr) ∧
  (∀ (s : State) (rom : Rom) (cmd : Command) (f : Fault), s.rom = some rom → nextMove s = .cycle cmd → cmd.rst = true →
    step s ≠ .fault f)

/-! ### Frames -/

/-- What a completed load leaves unchanged: the two result registers and everything that is no register. -/
def Obligations.LoadFrame : Prop :=
  ∀ (s t : State) (phase : Nat), exec (.sincos phase) s = .next t ∨ exec (.sincosT phase) s = .next t →
    t.regs.cosQ = s.regs.cosQ ∧ t.regs.sinQ = s.regs.sinQ ∧ KeepsSurroundings s t

/-- What a completed ITER leaves unchanged: the flips, the trace latch, the result registers, either `st` or `i`, and
everything that is no register. -/
def Obligations.IterFrame : Prop :=
  ∀ s t : State, exec .iter s = .next t →
    t.regs.fc = s.regs.fc ∧ t.regs.fs = s.regs.fs ∧ t.regs.tr = s.regs.tr ∧ t.regs.cosQ = s.regs.cosQ ∧
    t.regs.sinQ = s.regs.sinQ ∧ (t.regs.st = s.regs.st ∨ t.regs.i = s.regs.i) ∧ KeepsSurroundings s t

/-- What a completed FINISH leaves unchanged: `i`, the vector, the flips, the trace latch, and everything that is no register. -/
def Obligations.FinishFrame : Prop :=
  ∀ s t : State, exec .finish s = .next t →
    t.regs.i = s.regs.i ∧ t.regs.x = s.regs.x ∧ t.regs.y = s.regs.y ∧ t.regs.z = s.regs.z ∧ t.regs.fc = s.regs.fc ∧
    t.regs.fs = s.regs.fs ∧ t.regs.tr = s.regs.tr ∧ KeepsSurroundings s t

/-- What a completed GENERATE leaves unchanged: every register, the configuration, the last answer and the host's moves; and
what a QUERY leaves unchanged: all that GENERATE does, and the tables and the message count. -/
def Obligations.ElaborationFrame : Prop :=
  ∀ s t : State,
    (exec .generate s = .next t → t.regs = s.regs ∧ t.cfg = s.cfg ∧ t.answer = s.answer ∧ t.pending = s.pending) ∧
    (exec .query s = .next t → t.regs = s.regs ∧ t.cfg = s.cfg ∧ t.rom = s.rom ∧ t.messages = s.messages ∧
      t.pending = s.pending)

/-! ### GENERATE and QUERY -/

/-- GENERATE completes on a configuration that passes every check of R201, and then puts in place a legal set of tables (those of
R105, R106 and R109), the diagnostic of R110, and one informational message if the diagnostic is 1 (R176). An entry of `ROT` and of `LUT` is
within 1 of what a correctly rounding library gives wherever binary64 gives a finite value below `2^53` (R111; how far a library
may be from correct rounding is the model's, log 6), and one of `ROT` is at most 1 more than `2^(CB+ZE+1)/pi` rounded (R113) while
`2^-(IB+i)/(2*pi)` is no subnormal number. -/
def Obligations.GenerateBuildsTheTables : Prop :=
  ∀ s : State, configError s.cfg = none → widthsFit s.cfg (generateRom s.cfg) = true →
    ∃ rom, exec .generate s =
        .next { s with rom := some rom, messages := s.messages + (if rom.diagUniform then 1 else 0) } ∧
      Legal s.cfg rom ∧
      rom.rot.length = s.cfg.repsN ∧ rom.shift.length = s.cfg.repsN ∧ rom.lut.length = 2 ^ s.cfg.ibN ∧
      (∀ i < s.cfg.repsN, rom.rot[i]? = some (rotEntry s.cfg i) ∧ rom.shift[i]? = some (s.cfg.ibN + i)) ∧
      (∀ k < 2 ^ s.cfg.ibN, rom.lut[k]? = some (lutEntry s.cfg (tableMagnitude s.cfg) k)) ∧
      (∀ r ∈ rom.rot, 1 ≤ r) ∧ (rom.diagUniform = true ↔ ∀ a ∈ rom.rot, ∀ b ∈ rom.rot, a = b) ∧
      (∀ (i : Nat) (r : Int), rom.rot[i]? = some r →
        (iterTangent s.cfg i ≠ 0 → rotValue s.cfg .high i < inf64 →
          toNearestInt (rotValue s.cfg .nearest i) < 2 ^ 53 →
          |r - ((toNearestInt (rotValue s.cfg .nearest i) : Int) + 1)| ≤ 1) ∧
        (s.cfg.ibN ≤ 30 → s.cfg.ibN + i ≤ 1019 → rotBound s.cfg < inf64 → r ≤ toNearestInt (rotBound s.cfg) + 1)) ∧
      (∀ (k : Nat) (e : Int), rom.lut[k]? = some e →
        let v m := lutValue s.cfg (tableMagnitude s.cfg m) m k
        v .high < inf64 → toFloorInt (v .nearest) < 2 ^ 53 →
          |e - ((toFloorInt (v .nearest) : Int) - ((2 ^ (s.cfg.oeN - 1) : Nat) : Int))| ≤ 1)

/-- R201, checks 1 to 8 in their order: the first that fails is the one GENERATE reports, and no table is built; check 9 is
reported only when they all pass. -/
def Obligations.GenerateReportsTheFirstFailingCheck : Prop :=
  ∀ s : State,
    (s.cfg.reps ≤ 0 → exec .generate s = .fault (.cfgError .cfgReps)) ∧
    (0 < s.cfg.reps → s.cfg.ib ≤ 0 → exec .generate s = .fault (.cfgError .cfgIndex)) ∧
    (0 < s.cfg.reps → 0 < s.cfg.ib →
      (s.cfg.cb < 0 → exec .generate s = .fault (.cfgError .cfgCordic)) ∧
      (0 ≤ s.cfg.cb →
        (s.cfg.ze < 0 → exec .generate s = .fault (.cfgError .cfgZe)) ∧
        (0 ≤ s.cfg.ze →
          (s.cfg.cb + s.cfg.ze < 1 → exec .generate s = .fault (.cfgError .cfgCz)) ∧
          (1 ≤ s.cfg.cb + s.cfg.ze →
            (s.cfg.oe < 1 → exec .generate s = .fault (.cfgError .cfgOe)) ∧
            (1 ≤ s.cfg.oe →
              (s.cfg.scale < 1 → exec .generate s = .fault (.cfgError .cfgScale)) ∧
              (1 ≤ s.cfg.scale → widthsFit s.cfg (generateRom s.cfg) = false →
                exec .generate s = .fault (.cfgError .cfgWidth))))))) ∧
    exec .generate s ≠ .fault (.cfgError .cfgTableSize)

/-- GENERATE on the two named configurations gives the tables 95_test_vectors.md section 1 lists, `DIAG_UNIFORM = 0` and no
message (R51, R53, R54, R115, R176). -/
def Obligations.NamedConfigurationsGenerateTheirTables : Prop :=
  (∀ s : State, s.cfg = Config.ref → exec .generate s = .next { s with rom := some refRom }) ∧
  (∀ s : State, s.cfg = Config.tiny →
    exec .generate s = .next { s with rom := some ⟨[41, 42, 42, 42], [2, 3, 4, 5], [72, 211, 317, 374], false⟩ }) ∧
  refRom.rot = 5340354 :: List.replicate 23 5340355 ∧ refRom.shift = (List.range 24).map (11 + ·) ∧
  refRom.lut.length = 2048 ∧ refRom.lut.sum = 10936446005 ∧ refRom.lut[0]? = some 3088 ∧ refRom.lut[2047]? = some 8388222

/-- REF with `ZE = 0` is over-provisioned: every entry of `ROT` is 333773, so the diagnostic is 1 and the generation reports
one message (R113, R176). -/
def Obligations.UniformTableFiresTheDiagnosticOnce : Prop :=
  (generateRom { Config.ref with ze := 0 }).rot = List.replicate 24 333773 ∧
  (generateRom { Config.ref with ze := 0 }).diagUniform = true ∧ messageCount (generateRom { Config.ref with ze := 0 }) = 1 ∧
  messageCount (generateRom Config.ref) = 0

/-- `start_shift = -IB` for every configuration with `IB` from 0 to 30, so that the tangent of `angle_i` is `2^-(IB+i)`, the shift
that ITER makes (R104, R106). That this tangent is `one64 / 2^SHIFT[i]`, and so 0, also where `SHIFT[i]` is above 1074 and binary64
does not hold `2^-SHIFT[i]`, is the model's own choice (log 19): R111 calls `2^n` exact. -/
def Obligations.StartShiftIsMinusIndexBits : Prop :=
  ∀ c : Config, 0 ≤ c.ib → c.ib ≤ 30 →
    startShift c = some (-c.ib) ∧ ∀ i, iterTangent c i = one64 / 2 ^ shiftEntry c i

/-- R170, R171, R172. QUERY returns the three constants from the configuration record, in any state; REF's and TINY's. That
the answer stands in a field of the state is the model's own (log 3). -/
def Obligations.QueryReturnsTheConstants : Prop :=
  (∀ s : State, exec .query s = .next { s with answer := some ⟨s.cfg.scale, 2 ^ s.cfg.inb, s.cfg.inb⟩ }) ∧
  queryAnswer Config.ref = ⟨32767, 4294967296, 32⟩ ∧ queryAnswer Config.tiny = ⟨100, 256, 8⟩

/-! ### Outputs -/

/-- R34 and R173. `busy` is `st != IDLE`. `trace_valid` is 1 exactly in state RUN with `tr = 1`, and the trace port then shows
`i`, `x`, `y` and `z`; in every other cycle it shows no value. -/
def Obligations.BusyAndTracePort : Prop :=
  ∀ (s : State) (st : SeqCode) (tr : Bool), s.regs.st = some st → s.regs.tr = some tr →
    s.outputs.busy = some (decide (st ≠ 0#2)) ∧
    (s.outputs.traceValid = some true ↔ st = 1#2 ∧ tr = true) ∧
    (s.outputs.traceValid = some false ↔ ¬ (st = 1#2 ∧ tr = true)) ∧
    (st = 1#2 ∧ tr = true → s.outputs.traceI = s.regs.i ∧ s.outputs.traceX = s.regs.x ∧ s.outputs.traceY = s.regs.y ∧
      s.outputs.traceZ = s.regs.z) ∧
    (¬ (st = 1#2 ∧ tr = true) → s.outputs.traceI = none ∧ s.outputs.traceX = none ∧ s.outputs.traceY = none ∧
      s.outputs.traceZ = none)

/-- R33. In a cycle of a built core FINISH writes `valid_q` 1 and every other operation writes it 0, so `done` is 1 exactly in
the cycle after a FINISH edge. -/
def Obligations.DoneFollowsFinishOnly : Prop :=
  ∀ (s t : State) (rom : Rom) (cmd : Command) (st : SeqCode), InCycle s rom cmd st → step s = .next t →
    t.outputs.done = some (decide (st = 2#2 ∧ cmd.rst = false))

/-! ### Invariants -/

/-- The invariant holds after the reset of every built core with legal tables, whatever its registers held, power-up included; and
in the model's reset state, which is REF's (log 4). -/
def Obligations.InvariantAtReset : Prop :=
  (∀ (s : State) (rom : Rom), s.rom = some rom → Legal s.cfg rom → ∃ t, exec .reset s = .next t ∧ t.cfg = s.cfg ∧ Inv t) ∧
  Inv State.reset

/-- Every completed step keeps the invariant of a core that has been reset. -/
def Obligations.StepKeepsTheInvariant : Prop := ∀ s t : State, Inv s → step s = .next t → Inv t

/-- R200 of a core in the invariant: no command, phase or sequence of commands makes a step stop. -/
def Obligations.NoStepFaultsFromTheInvariant : Prop := ∀ s : State, Inv s → ∃ t, step s = .next t

/-- Every completed step, on any tables and any configuration with `W_OUT >= 1`, keeps this: the values that the signed registers
`x`, `y`, `z`, `cos_q` and `sin_q` hold fit their widths (R13), and the sequencer code is not the reserved one (R29). `W_OUT >= 1`
is what the reset value 0 needs to fit. The unsigned counter `i` is not meant: that it stays below `REPS` is part of `Inv` (R30). -/
def Obligations.StepKeepsTheWidths : Prop :=
  ∀ s t : State, 1 ≤ s.cfg.wOut → WidthsHold s → step s = .next t → WidthsHold t

/-- That condition on the signed registers and the sequencer code holds at reset and at power-up. -/
def Obligations.WidthsHoldAtReset : Prop :=
  WidthsHold State.reset ∧ ∀ c rom, WidthsHold (State.powerUp c rom)

/-! ### Evaluations -/

/-- R146. From state IDLE on a legal core, an accepted command of phase `p` is followed by `REPS` cycles of ITER and one of
FINISH, whatever the inputs of those cycles as long as none has `rst = 1`, and then the result registers hold `SinCos(p)`. QUERY
moves in between are left out. -/
def Obligations.EvaluationComputesSinCos : Prop :=
  ∀ (s : State) (rom : Rom) (cmd : Command) (ms : List HostMove), s.rom = some rom → Legal s.cfg rom →
    s.regs.st = some 0#2 → s.pending = .cycle cmd :: ms → cmd.rst = false → cmd.start = true →
    NoResetFor ms (s.cfg.repsN + 1) →
    (∀ k, 1 ≤ k → k ≤ s.cfg.repsN → ∃ t, doneSteps k s = .next t ∧ selectInstr t = .next .iter) ∧
    (∃ t, doneSteps (s.cfg.repsN + 1) s = .next t ∧ selectInstr t = .next .finish) ∧
    ∃ t a b, doneSteps (s.cfg.repsN + 2) s = .next t ∧ sinCos s.cfg rom cmd.phase = .ok (a, b) ∧
      t.regs.cosQ = some a ∧ t.regs.sinQ = some b

/-- R238. The host protocol, cycle by cycle: what each cycle of an evaluation drives on the outputs. QUERY moves in between are
left out. -/
def Obligations.HostProtocolTimeline : Prop :=
  ∀ (s : State) (rom : Rom) (cmd : Command) (ms : List HostMove), s.rom = some rom → Legal s.cfg rom →
    s.regs.st = some 0#2 → s.pending = .cycle cmd :: ms → cmd.rst = false → cmd.start = true →
    NoResetFor ms (s.cfg.repsN + 1) →
    s.outputs.busy = some false ∧ s.outputs.traceValid = some false ∧
    (∀ k, 1 ≤ k → k ≤ s.cfg.repsN → ∃ t, doneSteps k s = .next t ∧ t.regs.st = some 1#2 ∧ t.regs.i = some (k - 1) ∧
      t.outputs.busy = some true ∧ t.outputs.traceValid = some cmd.traceEn ∧ t.outputs.done = some false ∧
      t.outputs.cosOut = s.outputs.cosOut ∧ t.outputs.sinOut = s.outputs.sinOut) ∧
    (∃ t, doneSteps (s.cfg.repsN + 1) s = .next t ∧ t.regs.st = some 2#2 ∧ t.outputs.busy = some true ∧
      t.outputs.traceValid = some false ∧ t.outputs.done = some false ∧ t.outputs.cosOut = s.outputs.cosOut ∧
      t.outputs.sinOut = s.outputs.sinOut) ∧
    ∃ t a b, doneSteps (s.cfg.repsN + 2) s = .next t ∧ sinCos s.cfg rom cmd.phase = .ok (a, b) ∧ t.regs.st = some 0#2 ∧
      t.outputs.busy = some false ∧ t.outputs.traceValid = some false ∧ t.outputs.done = some true ∧
      t.outputs.cosOut = some a ∧ t.outputs.sinOut = some b

/-- R173 of an evaluation started by SINCOS.T: in each of its `REPS` ITER cycles the trace port shows the iteration number and
the vector that iteration reads. -/
def Obligations.TraceShowsTheEvaluation : Prop :=
  ∀ (s : State) (rom : Rom) (p : Nat) (ms : List HostMove), s.rom = some rom → Legal s.cfg rom → s.regs.st = some 0#2 →
    s.pending = .cycle ⟨false, true, true, p⟩ :: ms → NoResetFor ms (s.cfg.repsN + 1) →
    ∀ k < s.cfg.repsN, ∃ t v, doneSteps (k + 1) s = .next t ∧ vecAt s.cfg rom p k = .ok v ∧ t.outputs.traceValid = some true ∧
      t.outputs.traceI = some k ∧ t.outputs.traceX = some v.x ∧ t.outputs.traceY = some v.y ∧ t.outputs.traceZ = some v.z

/-- R147. The result depends only on the phase sampled in the command cycle and on the tables: two evaluations of one phase on
cores that differ in everything else, with other inputs while they run and other trace bits, give the same result. -/
def Obligations.ResultDependsOnPhaseAndTablesOnly : Prop :=
  ∀ (s s' : State) (rom : Rom) (cmd cmd' : Command) (ms ms' : List HostMove) (t t' : State),
    s.rom = some rom → s'.rom = some rom → s'.cfg = s.cfg → Legal s.cfg rom →
    s.regs.st = some 0#2 → s'.regs.st = some 0#2 → s.pending = .cycle cmd :: ms → s'.pending = .cycle cmd' :: ms' →
    cmd.rst = false → cmd'.rst = false → cmd.start = true → cmd'.start = true → cmd'.phase = cmd.phase →
    NoResetFor ms (s.cfg.repsN + 1) → NoResetFor ms' (s.cfg.repsN + 1) →
    doneSteps (s.cfg.repsN + 2) s = .next t → doneSteps (s.cfg.repsN + 2) s' = .next t' →
    t'.regs.cosQ = t.regs.cosQ ∧ t'.regs.sinQ = t.regs.sinQ ∧ t'.regs.x = t.regs.x ∧ t'.regs.y = t.regs.y ∧
      t'.regs.z = t.regs.z

/-- R233. A command presented in state RUN or FIN is lost: the step is ITER or FINISH, the one that no command gives, and the
command is no longer among the host's moves. A computation begins only in a cycle in state IDLE with `start = 1` and
`rst = 0`. -/
def Obligations.CommandWhileBusyIsLost : Prop :=
  (∀ (s t : State) (rom : Rom) (st : SeqCode) (b tr : Bool) (p : Nat) (ms : List HostMove), s.rom = some rom →
    s.regs.st = some st → st = 1#2 ∨ st = 2#2 →
    step (s.withPending (.cycle ⟨false, b, tr, p⟩ :: ms)) = exec (if st = 1#2 then .iter else .finish) (s.withPending ms) ∧
    step (s.withPending (.cycle ⟨false, b, tr, p⟩ :: ms)) = step (s.withPending (.cycle ⟨false, false, false, 0⟩ :: ms)) ∧
    (step (s.withPending (.cycle ⟨false, b, tr, p⟩ :: ms)) = .next t → t.pending = ms)) ∧
  ∀ (s t : State) (rom : Rom) (cmd : Command) (st : SeqCode), InCycle s rom cmd st → st ≠ 1#2 → step s = .next t →
    t.regs.st = some 1#2 → st = 0#2 ∧ cmd.start = true ∧ cmd.rst = false

/-- The bounds of R148: before iteration `n` of any phase `|z| <= B_n` and `|x|, |y| <= A_n`, and where these stay below the
register widths every vector fits. `B_n` and `A_n` of the two named configurations. -/
def Obligations.VectorsStayWithinTheBounds : Prop :=
  (∀ (c : Config) (rom : Rom), configError c = none → rom.rot.length = c.repsN → (∀ r ∈ rom.rot, 1 ≤ r) →
    rom.shift = generateShift c → rom.lut.length = c.ts → ∀ p n, n ≤ c.repsN →
    ∃ v, vecAt c rom p n = .ok v ∧ |v.z| ≤ boundZ c rom n ∧ |v.x| ≤ boundXY rom n ∧ |v.y| ≤ boundXY rom n ∧
      (boundZ c rom n < 2 ^ (c.wZ - 1) → boundXY rom n < 2 ^ (c.wXY - 1) → 1 ≤ c.wZ → 1 ≤ c.wXY → v.fits c = true)) ∧
  (List.range 5).map (boundZ Config.tiny tinyRom) = [32, 82, 84, 84, 84] ∧ boundXY tinyRom 4 = 578 ∧
  boundXY refRom 24 = 8396436 ∧ (∀ n ≤ 24, boundZ Config.ref refRom n ≤ 10680710)

/-- The symmetry of R149: half a circle further on, both results are negated, or one less than negated. -/
def Obligations.HalfCircleNegatesTheResult : Prop :=
  ∀ (c : Config) (rom : Rom) (p : Nat) (a b : Int), sinCos c rom p = .ok (a, b) →
    ∃ da db : Int, (da = 0 ∨ da = 1) ∧ (db = 0 ∨ db = 1) ∧
      sinCos c rom ((p + c.fullCircle / 2) % c.fullCircle) = .ok (-a - da, -b - db)

/-- Values of `SinCos` the spec lists (95_test_vectors.md sections 2 and 4.7). -/
def Obligations.ListedResults : Prop :=
  sinCos Config.tiny tinyRom 0 = .ok (99, -2) ∧ sinCos Config.tiny tinyRom 100 = .ok (-78, 62) ∧
  sinCos Config.tiny tinyRom 200 = .ok (16, -99) ∧ sinCos Config.ref refRom 0 = .ok (32766, -1) ∧
  sinCos Config.ref refRom 1073741824 = .ok (0, 32766) ∧ sinCos Config.ref refRom 982777856 = .ok (4346, 32476)

/-! ### Programs -/

/-- R81. `WAIT n` is `n` lines of NOP; `SINCOS.W p` and `SINCOS.TW p` are the command and `WAIT REPS+1`, 26 lines in REF and 6
in TINY; a literal outside the phase's range is refused (R80). -/
def Obligations.PseudoInstructionsExpand : Prop :=
  (∀ (c : Config) (n : Nat), assembleLine c (.wait n) = some (List.replicate n ⟨false, false, false, 0⟩)) ∧
  (∀ (c : Config) (p : Nat), p < 2 ^ c.inb →
    assembleLine c (.sincosW p) = assemble c [.sincos p, .wait (c.repsN + 1)] ∧
    assembleLine c (.sincosTW p) = assemble c [.sincosT p, .wait (c.repsN + 1)]) ∧
  (∀ (c : Config) (p : Nat), 2 ^ c.inb ≤ p → assembleLine c (.sincos p) = none ∧ assembleLine c (.sincosT p) = none ∧
    assembleLine c (.sincosW p) = none ∧ assembleLine c (.sincosTW p) = none) ∧
  (∀ p < 256, ((assembleLine Config.tiny (.sincosW p)).map List.length) = some 6) ∧
  (∀ p < 2 ^ 32, ((assembleLine Config.ref (.sincosW p)).map List.length) = some 26)
end

