-- ==== Sys2Proof/Laws/Binary64.lean ====
section
/-! SUPPORT. What binary64 rounding does: it keeps the order, it commutes with powers of two above the subnormal numbers, and it
leaves 53-bit numbers alone. From these, the bound of R113 on the rotation angles, and `start_shift = -IB` (R104). -/

namespace Sys2Proof.Machine

/-! ### Rounding -/

theorem bitsBelow_le_iff {n k j : Nat} (h : n < 2 ^ 2 ^ k) : bitsBelow k n ≤ j ↔ n < 2 ^ j := by
  induction k generalizing n j with
  | zero =>
    show n ≤ j ↔ _
    have h : n < 2 := h
    have : n = 0 ∨ n = 1 := by omega
    rcases this with rfl | rfl
    · simp
    · rcases j with _ | j
      · simp
      · simp only [Nat.le_add_left, true_iff]
        exact Nat.one_lt_two_pow (by omega)
  | succ k ih =>
    show bitsAbove (2 ^ k) (bitsBelow k) n ≤ j ↔ _
    unfold bitsAbove
    split
    · next h0 => exact ih ((Nat.div_eq_zero_iff_lt (Nat.two_pow_pos _)).mp h0)
    · next q hq =>
      rw [show q + 1 = n / 2 ^ 2 ^ k from hq.symm]
      have hq : n / 2 ^ 2 ^ k < 2 ^ 2 ^ k := by
        rw [Nat.div_lt_iff_lt_mul (Nat.two_pow_pos _), ← pow_add, ← two_mul, ← pow_succ']; exact h
      rcases Nat.lt_or_ge j (2 ^ k) with hj | hj
      · have h1 : 2 ^ j < 2 ^ 2 ^ k := Nat.pow_lt_pow_right (by decide) hj
        have h2 : 2 ^ 2 ^ k ≤ n := by
          by_contra hlt
          rw [Nat.div_eq_of_lt (not_le.mp hlt)] at *
          omega
        constructor <;> intro <;> omega
      · obtain ⟨d, rfl⟩ := Nat.exists_eq_add_of_le hj
        rw [Nat.add_le_add_iff_left, ih hq, Nat.div_lt_iff_lt_mul (Nat.two_pow_pos _), pow_add, mul_comm]

theorem bits64_le_iff {n k : Nat} : bits64 n ≤ k ↔ n < 2 ^ k := by
  unfold bits64
  split
  · next h => exact bitsBelow_le_iff h
  · unfold bitLength
    split
    · next h => subst h; simp
    · next h => rw [Nat.succ_le_iff, Nat.log2_lt h]

/-- The faster evaluation is the number of bits. -/
theorem bits64_eq {n : Nat} : bits64 n = bitLength n := by
  have h : ∀ k, bitLength n ≤ k ↔ n < 2 ^ k := by
    intro k
    unfold bitLength
    split
    · next h => subst h; simp
    · next h => rw [Nat.succ_le_iff, Nat.log2_lt h]
  exact le_antisymm (bits64_le_iff.mpr ((h _).mp le_rfl)) ((h _).mpr (bits64_le_iff.mp le_rfl))

theorem lt_bits64_iff {n k : Nat} : k < bits64 n ↔ 2 ^ k ≤ n := by
  rw [← not_le, bits64_le_iff, not_lt]

theorem bits64_mono {a b : Nat} (h : a ≤ b) : bits64 a ≤ bits64 b :=
  bits64_le_iff.mpr (lt_of_le_of_lt h (bits64_le_iff.mp le_rfl))

/-- The directions in the order of their results. -/
def Rounding.rank : Rounding → Nat
  | .low => 0
  | .nearest => 1
  | .high => 2

/-- Rounding to an integer significand keeps the order, also from a lower direction to a higher one. -/
theorem roundQuotient_mono {m m' : Rounding} {a b d : Nat} (hm : m.rank ≤ m'.rank) (hd : 0 < d) (h : a ≤ b) :
    roundQuotient m a d ≤ roundQuotient m' b d := by
  have hq : a / d ≤ b / d := Nat.div_le_div_right h
  have ha := Nat.div_add_mod a d
  have hb := Nat.div_add_mod b d
  rcases hq.lt_or_eq with hq | hq
  · cases m <;> cases m' <;> simp only [Rounding.rank] at hm <;> simp only [roundQuotient] <;> (try split_ifs) <;> omega
  · rw [hq] at ha
    cases m <;> cases m' <;> simp only [Rounding.rank] at hm <;> simp only [roundQuotient, hq] <;> (try split_ifs) <;> omega

/-- An exact value of at most `n` units rounds to at most `n` units. -/
theorem roundQuotient_le {m : Rounding} {a d n : Nat} (h : a ≤ n * d) : roundQuotient m a d ≤ n := by
  rcases Nat.eq_zero_or_pos d with rfl | hd
  · have : a = 0 := by omega
    subst this; cases m <;> simp [roundQuotient]
  have ha := Nat.div_add_mod a d
  have hle : a / d ≤ n := by
    have := Nat.div_le_div_right (c := d) h
    rwa [Nat.mul_div_cancel _ hd] at this
  rcases hle.lt_or_eq with hlt | heq
  · cases m <;> simp only [roundQuotient] <;> try split
    all_goals omega
  · have h0 : a % d = 0 := by
      rw [heq] at ha; rw [mul_comm n d] at h; omega
    cases m <;> simp [roundQuotient, h0, heq, hd.ne']

/-- An exact value of `n` units or more rounds to `n` units or more. -/
theorem le_roundQuotient {m : Rounding} {a d n : Nat} (hd : 0 < d) (h : n * d ≤ a) : n ≤ roundQuotient m a d := by
  have hle : n ≤ a / d := (Nat.le_div_iff_mul_le hd).mpr h
  cases m <;> simp only [roundQuotient] <;> try split
  all_goals omega

/-- A whole number of units rounds to itself. -/
theorem roundQuotient_mul {m : Rounding} {n d : Nat} (hd : 0 < d) : roundQuotient m (n * d) d = n :=
  le_antisymm (roundQuotient_le le_rfl) (le_roundQuotient hd le_rfl)

/-- A common factor does not matter. -/
theorem roundQuotient_mul_right {m : Rounding} {a d k : Nat} (hk : 0 < k) :
    roundQuotient m (a * k) (d * k) = roundQuotient m a d := by
  have h1 : a * k / (d * k) = a / d := Nat.mul_div_mul_right _ _ hk
  have h2 : a * k % (d * k) = a % d * k := Nat.mul_mod_mul_right ..
  have h3 : d * k < 2 * (a % d * k) ↔ d < 2 * (a % d) := by rw [← mul_assoc]; exact Nat.mul_lt_mul_right hk
  have h4 : d * k = 2 * (a % d * k) ↔ d = 2 * (a % d) := by rw [← mul_assoc]; exact Nat.mul_left_inj (by omega)
  have h5 : a % d * k = 0 ↔ a % d = 0 := by rw [Nat.mul_eq_zero]; omega
  cases m <;> simp only [roundQuotient, h1, h2, h3, h4, h5]

/-- The exact value is below `2^53` quanta. -/
theorem le_quanta {a d : Nat} (hd : 0 < d) : a ≤ 2 ^ 53 * (d * 2 ^ quantumExp a d) := by
  have h : a / d < 2 ^ (53 + quantumExp a d) := bits64_le_iff.mp (by unfold quantumExp; omega)
  rw [Nat.div_lt_iff_lt_mul hd, pow_add] at h
  linarith [h, mul_assoc (2 ^ 53) (2 ^ quantumExp a d) d, mul_comm d (2 ^ quantumExp a d)]

/-- Above the subnormal numbers the exact value is at least `2^52` quanta. -/
theorem quanta_le {a d : Nat} (hd : 0 < d) (h : 0 < quantumExp a d) : 2 ^ 52 * (d * 2 ^ quantumExp a d) ≤ a := by
  have h1 : 2 ^ (52 + quantumExp a d) ≤ a / d := lt_bits64_iff.mp (by unfold quantumExp at h ⊢; omega)
  rw [Nat.le_div_iff_mul_le hd, pow_add] at h1
  linarith [mul_assoc (2 ^ 52) (2 ^ quantumExp a d) d, mul_comm d (2 ^ quantumExp a d)]

theorem quantumExp_mono {a b d : Nat} (h : a ≤ b) : quantumExp a d ≤ quantumExp b d :=
  Nat.sub_le_sub_right (bits64_mono (Nat.div_le_div_right h)) _

/-- ROUNDING KEEPS THE ORDER, also from a lower direction to a higher one. -/
theorem round64_mono {m m' : Rounding} {a b d : Nat} (hm : m.rank ≤ m'.rank) (hd : 0 < d) (h : a ≤ b) :
    round64 m a d ≤ round64 m' b d := by
  unfold round64
  rcases (quantumExp_mono h (d := d)).lt_or_eq with hs | hs
  · have h1 := roundQuotient_le (m := m) (le_quanta (a := a) hd)
    have h2 := le_roundQuotient (m := m') (Nat.mul_pos hd (Nat.two_pow_pos _)) (quanta_le hd (by omega : 0 < quantumExp b d))
    calc _ ≤ 2 ^ 53 * 2 ^ quantumExp a d := Nat.mul_le_mul_right _ h1
      _ = 2 ^ (53 + quantumExp a d) := (pow_add ..).symm
      _ ≤ 2 ^ (52 + quantumExp b d) := Nat.pow_le_pow_right (by decide) (by omega)
      _ = 2 ^ 52 * 2 ^ quantumExp b d := pow_add ..
      _ ≤ _ := Nat.mul_le_mul_right _ h2
  · rw [hs]
    exact Nat.mul_le_mul_right _ (roundQuotient_mono hm (Nat.mul_pos hd (Nat.two_pow_pos _)) h)

/-- A number of at most 53 significant bits is left alone. -/
theorem round64_of_significand {m : Rounding} {n e : Nat} (h : n ≤ 2 ^ 53) : round64 m (n * 2 ^ e) 1 = n * 2 ^ e := by
  have key : 2 ^ quantumExp (n * 2 ^ e) 1 ∣ n * 2 ^ e := by
    rcases h.lt_or_eq with h | h
    · refine Dvd.dvd.mul_left (pow_dvd_pow 2 ?_) n
      have : bits64 (n * 2 ^ e) ≤ 53 + e := by
        rw [bits64_le_iff, pow_add]; exact Nat.mul_lt_mul_of_pos_right h (Nat.two_pow_pos e)
      simp only [quantumExp, Nat.div_one]; omega
    · rw [h, ← pow_add]
      refine pow_dvd_pow 2 ?_
      have : bits64 (2 ^ (53 + e)) ≤ 54 + e := by
        rw [bits64_le_iff]; exact Nat.pow_lt_pow_right (by decide) (by omega)
      simp only [quantumExp, Nat.div_one]; omega
  obtain ⟨k, hk⟩ := key
  have hq : roundQuotient m (n * 2 ^ e) (1 * 2 ^ quantumExp (n * 2 ^ e) 1) = k := by
    rw [one_mul]
    have hu := Nat.two_pow_pos (quantumExp (n * 2 ^ e) 1)
    generalize 2 ^ quantumExp (n * 2 ^ e) 1 = u at hk hu ⊢
    rw [hk, mul_comm u k, roundQuotient_mul hu]
  unfold round64
  rw [hq, mul_comm, ← hk]

/-- Above the subnormal numbers rounding commutes with powers of two. -/
theorem round64_scale {m : Rounding} {a d k : Nat} (hd : 0 < d) (h : 2 ^ 52 * d ≤ a) :
    round64 m (a * 2 ^ k) d = round64 m a d * 2 ^ k := by
  have hq : quantumExp (a * 2 ^ k) d = quantumExp a d + k := by
    have h1 : 52 < bits64 (a / d) := lt_bits64_iff.mpr ((Nat.le_div_iff_mul_le hd).mpr h)
    have h2 : bits64 (a * 2 ^ k / d) = bits64 (a / d) + k := by
      refine le_antisymm ?_ ?_
      · rw [bits64_le_iff, Nat.div_lt_iff_lt_mul hd, pow_add]
        have : a < 2 ^ bits64 (a / d) * d := (Nat.div_lt_iff_lt_mul hd).mp (bits64_le_iff.mp le_rfl)
        calc _ < 2 ^ bits64 (a / d) * d * 2 ^ k := Nat.mul_lt_mul_of_pos_right this (Nat.two_pow_pos k)
          _ = _ := by ring
      · obtain ⟨j, hj⟩ := Nat.exists_eq_add_of_lt h1
        have h3 : 2 ^ (52 + j) ≤ a / d := lt_bits64_iff.mp (by omega)
        rw [Nat.le_div_iff_mul_le hd] at h3
        have : 2 ^ (52 + j + k) ≤ a * 2 ^ k / d := by
          rw [Nat.le_div_iff_mul_le hd, pow_add]
          calc _ = 2 ^ (52 + j) * d * 2 ^ k := by ring
            _ ≤ _ := Nat.mul_le_mul_right _ h3
        have := lt_bits64_iff.mpr this
        omega
    unfold quantumExp; omega
  unfold round64
  rw [hq, pow_add, ← mul_assoc d, roundQuotient_mul_right (Nat.two_pow_pos k), mul_assoc]

/-- The same factor above and below changes nothing. -/
theorem round64_mul_right {m : Rounding} {a d k : Nat} (hk : 0 < k) : round64 m (a * k) (d * k) = round64 m a d := by
  have h : quantumExp (a * k) (d * k) = quantumExp a d := by unfold quantumExp; rw [Nat.mul_div_mul_right _ _ hk]
  unfold round64
  rw [h, mul_right_comm, roundQuotient_mul_right hk]

/-- A rounded number is one of at most 53 significant bits. -/
theorem round64_significand {a d : Nat} (hd : 0 < d) : ∃ n e, n ≤ 2 ^ 53 ∧ round64 .nearest a d = n * 2 ^ e :=
  ⟨_, _, roundQuotient_le (le_quanta hd), rfl⟩

/-- Scaling a rounded number up by a power of two is exact. -/
theorem round64_round64_scale {a d k : Nat} (hd : 0 < d) :
    round64 .nearest (round64 .nearest a d * 2 ^ k) 1 = round64 .nearest a d * 2 ^ k := by
  obtain ⟨n, e, hn, h⟩ := round64_significand (a := a) hd
  rw [h, mul_assoc, ← pow_add, round64_of_significand hn]

/-! ### The operations -/

theorem arith64_le_inf64 {f : Bool} {a d : Nat} : arith64 f a d ≤ inf64 := by unfold arith64; split <;> simp

/-- A finite result is the rounded exact value, of finite operands. -/
theorem arith64_finite {f : Bool} {a d : Nat} (h : arith64 f a d < inf64) : f = true ∧ arith64 f a d = round64 .nearest a d := by
  unfold arith64 at h ⊢
  split at h
  · next hf => exact ⟨hf, by rw [if_pos hf]; omega⟩
  · omega

theorem isFinite64_iff {a : Nat} : isFinite64 a = true ↔ a < inf64 := by simp [isFinite64]

theorem libResult_le_cap {m : Rounding} {p v cap : Nat} : libResult m p v cap ≤ cap := Nat.min_le_left ..

theorem arith64_mono {f f' : Bool} {a b d : Nat} (hf : f' = true → f = true) (hd : 0 < d) (h : f' = true → a ≤ b) :
    arith64 f a d ≤ arith64 f' b d := by
  cases f' with
  | false => exact arith64_le_inf64
  | true =>
    unfold arith64
    rw [hf rfl, if_pos rfl, if_pos rfl]
    exact min_le_min_left inf64 (round64_mono le_rfl hd (h rfl))

theorem div64_mono {a b d : Nat} (hd : 0 < d) (h : a ≤ b) : div64 a d ≤ div64 b d := by
  refine arith64_mono (fun hf => ?_) hd (fun _ => Nat.mul_le_mul_right _ h)
  simp only [Bool.and_eq_true, isFinite64_iff] at hf ⊢
  exact ⟨lt_of_le_of_lt h hf.1, hf.2⟩

theorem scaleUp64_mono {a b n : Nat} (h : a ≤ b) : scaleUp64 a n ≤ scaleUp64 b n := by
  refine arith64_mono (fun hf => ?_) one_pos (fun _ => Nat.mul_le_mul_right _ h)
  simp only [Bool.and_eq_true, isFinite64_iff] at hf ⊢
  exact ⟨lt_of_le_of_lt h hf.1, hf.2⟩

/-- A library function that rounds in a higher direction gives a result as high or higher. -/
theorem libResult_mono {m m' : Rounding} {p v cap : Nat} (hm : m.rank ≤ m'.rank) : libResult m p v cap ≤ libResult m' p v cap := by
  exact min_le_min_left _ (round64_mono hm (Nat.two_pow_pos _) le_rfl)

theorem atan64_mono {m m' : Rounding} {x : Nat} (hm : m.rank ≤ m'.rank) : atan64 m x ≤ atan64 m' x := by
  unfold atan64
  split
  · exact libResult_mono hm
  · exact le_rfl

/-- `atan x <= x`, however the library rounds. -/
theorem atan64_le {m : Rounding} {x : Nat} : atan64 m x ≤ x := by
  unfold atan64
  split
  · exact libResult_le_cap
  · next h => rw [isFinite64_iff] at h; omega

/-! ### `start_shift` and the rotation angles -/

/-- `start_shift` depends on `IB` only, and is `-IB` (R104). -/
theorem startShift_eq {c : Config} (h : c.ibN ≤ 30) : startShift c = some (-(c.ibN : Int)) := by
  have h1 : ∀ n ≤ 30, startShift { Config.ref with ib := (n : Nat) } = some (-(n : Int)) := by decide +kernel
  have h2 : halfTableAngle c = halfTableAngle { Config.ref with ib := (c.ibN : Nat) } := by
    simp only [halfTableAngle, tableAngle, Config.ibN, Int.toNat_natCast]
  rw [← h1 c.ibN h]
  simp only [startShift, h2]

theorem pi64_pos : 0 < pi64 := by unfold pi64; positivity

theorem twoPi64_pos : 0 < twoPi64 := Nat.mul_pos two_pos pi64_pos

/-- `tan(angle_i) = 2^-(IB+i)` (R104). -/
theorem iterTangent_eq {c : Config} (h : c.ibN ≤ 30) (i : Nat) : iterTangent c i = powNeg64 (c.ibN + i) := by
  have he : ((i : Int) - -(c.ibN : Int)).toNat = c.ibN + i := by omega
  unfold iterTangent
  rw [startShift_eq h]
  show powNeg64 _ = _
  rw [he]

theorem pi64_le : pi64 ≤ 4 * one64 := by
  have h : one64 = 2 ^ 51 * 2 ^ 1023 := by unfold one64; rw [← pow_add]
  rw [pi64, h, ← mul_assoc]
  exact Nat.mul_le_mul_right _ (by decide)

theorem one64_scaled {n : Nat} : round64 .nearest (one64 * 2 ^ n) 1 = one64 * 2 ^ n := by
  have h := round64_of_significand (m := .nearest) (n := 1) (e := 1074 + n) (by decide)
  rwa [one_mul, pow_add, ← one64] at h

/-- The bound of R113 as one rounded quotient, where it is finite. -/
theorem rotBound_eq {c : Config} (h : rotBound c < inf64) :
    rotBound c = round64 .nearest (one64 * 2 ^ (c.cbN + c.zeN + 1) * one64) pi64 := by
  unfold rotBound div64 at h ⊢
  obtain ⟨hf, he⟩ := arith64_finite h
  simp only [Bool.and_eq_true, isFinite64_iff] at hf
  rw [he]
  unfold scaleUp64 at hf ⊢
  rw [(arith64_finite hf.1).2, one64_scaled]

/-- The value that `ROT[i]` rounds as one rounded quotient and a power of two, where it is finite. -/
theorem rotValue_eq {c : Config} {m : Rounding} {i : Nat} (h : rotValue c m i < inf64) :
    rotValue c m i = round64 .nearest (iterAngle c m i * one64) twoPi64 * 2 ^ (c.inb + (c.zeN + i)) := by
  have hp := twoPi64_pos
  unfold rotValue scaleUp64 at h ⊢
  obtain ⟨hf, he⟩ := arith64_finite h
  simp only [Bool.and_eq_true, isFinite64_iff] at hf
  obtain ⟨hf1, he1⟩ := arith64_finite hf.1
  simp only [Bool.and_eq_true, isFinite64_iff] at hf1
  rw [he, he1]
  unfold div64 at hf1 ⊢
  rw [(arith64_finite hf1.1).2, round64_round64_scale hp, mul_assoc, ← pow_add, round64_round64_scale hp]

/-- While `2^-(IB+i) / (2*pi)` is no subnormal number, the value that `ROT[i]` rounds is at most the bound of R113. -/
theorem rotValue_le_rotBound {c : Config} {m : Rounding} {i : Nat} (h : c.ibN ≤ 30) (hi : c.ibN + i ≤ 1019)
    (hv : rotValue c m i < inf64) : rotValue c m i ≤ rotBound c := by
  by_cases hb : rotBound c < inf64
  · have hp := twoPi64_pos
    have hx : iterAngle c m i ≤ 2 ^ (1074 - (c.ibN + i)) := by
      refine le_trans atan64_le (le_of_eq ?_)
      rw [iterTangent_eq h, powNeg64, one64, Nat.pow_div (by omega) (by decide)]
    have hbig : 2 ^ 52 * twoPi64 ≤ 2 ^ (1074 - (c.ibN + i)) * one64 := by
      calc 2 ^ 52 * twoPi64 ≤ 2 ^ 52 * (2 * (4 * one64)) := Nat.mul_le_mul_left _ (Nat.mul_le_mul_left 2 pi64_le)
        _ = 2 ^ 55 * one64 := by ring
        _ ≤ _ := Nat.mul_le_mul_right _ (Nat.pow_le_pow_right two_pos (by omega))
    have he : 2 ^ (1074 - (c.ibN + i)) * 2 ^ (c.inb + (c.zeN + i)) = one64 * 2 ^ (c.cbN + c.zeN + 1) * 2 := by
      unfold one64 Config.inb
      rw [← pow_add, ← pow_add, ← pow_succ]
      congr 1; omega
    rw [rotValue_eq hv, rotBound_eq hb]
    calc _ ≤ round64 .nearest (2 ^ (1074 - (c.ibN + i)) * one64) twoPi64 * 2 ^ (c.inb + (c.zeN + i)) :=
          Nat.mul_le_mul_right _ (round64_mono le_rfl hp (Nat.mul_le_mul_right _ hx))
      _ = round64 .nearest (2 ^ (1074 - (c.ibN + i)) * one64 * 2 ^ (c.inb + (c.zeN + i))) twoPi64 :=
          (round64_scale hp hbig).symm
      _ = round64 .nearest (one64 * 2 ^ (c.cbN + c.zeN + 1) * one64 * 2) (pi64 * 2) := by
          rw [mul_right_comm, he, mul_right_comm, twoPi64, mul_comm 2]
      _ = _ := round64_mul_right two_pos
  · exact le_trans hv.le (not_lt.mp hb)

theorem toNearestInt_mono {a b : Nat} (h : a ≤ b) : toNearestInt a ≤ toNearestInt b :=
  Nat.div_le_div_right (Nat.add_le_add_right h _)

/-- A higher direction of the library gives a value as high or higher. -/
theorem rotValue_mono {c : Config} {m m' : Rounding} {i : Nat} (hm : m.rank ≤ m'.rank) : rotValue c m i ≤ rotValue c m' i :=
  scaleUp64_mono (scaleUp64_mono (div64_mono twoPi64_pos (atan64_mono hm)))

/-- R111: an entry is the integer of a correctly rounding library or the one beside it, and the first where the library's
rounding cannot matter. -/
theorem decidedEntry_near {c : Config} {t : RomTable} {k lo near hi : Nat} :
    near - 2 ^ (bits64 near - 53) ≤ decidedEntry c t k lo near hi ∧
    decidedEntry c t k lo near hi ≤ near + 2 ^ (bits64 near - 53) ∧
    (lo = near → hi = near → decidedEntry c t k lo near hi = near) := by
  unfold decidedEntry
  have h : c.libmOffset t k % 3 * 2 ^ (bits64 near - 53) ≤ 2 * 2 ^ (bits64 near - 53) :=
    Nat.mul_le_mul_right _ (by omega)
  generalize c.libmOffset t k % 3 * 2 ^ (bits64 near - 53) = o at h
  generalize 2 ^ (bits64 near - 53) = u at h ⊢
  split <;> refine ⟨?_, ?_, ?_⟩ <;> omega

theorem decidedEntry_le {c : Config} {t : RomTable} {k lo near hi : Nat} (h : near ≤ hi) :
    decidedEntry c t k lo near hi ≤ hi := by
  unfold decidedEntry
  split <;> omega

/-- Every `ROT[i]` is at least 1 (R51, R105). -/
theorem rotEntry_pos {c : Config} {i : Nat} : 1 ≤ rotEntry c i := Int.le_add_of_nonneg_left (Int.natCast_nonneg _)

/-- R113: `ROT[i] - 1` is at most `2^(CB+ZE+1) / pi` rounded. -/
theorem rotEntry_le {c : Config} {i : Nat} (h : c.ibN ≤ 30) (hi : c.ibN + i ≤ 1019) (hb : rotBound c < inf64) :
    rotEntry c i ≤ toNearestInt (rotBound c) + 1 := by
  unfold rotEntry
  refine Int.add_le_add_right (Int.ofNat_le.mpr ?_) 1
  split
  · unfold unstatedRot
    rw [if_pos (isFinite64_iff.mpr hb)]
    exact Nat.min_le_right ..
  · next hn =>
    simp only [Bool.or_eq_true, decide_eq_true_eq, Bool.not_eq_true', not_or, Bool.not_eq_false, isFinite64_iff] at hn
    exact le_trans (decidedEntry_le (toNearestInt_mono (rotValue_mono (by decide))))
      (toNearestInt_mono (rotValue_le_rotBound h hi hn.2))

/-- R111: an entry of `ROT` is within 1 of what a correctly rounding library gives, below `2^53`. -/
theorem rotEntry_near {c : Config} {i : Nat} (h0 : iterTangent c i ≠ 0) (hv : rotValue c .high i < inf64)
    (hn : toNearestInt (rotValue c .nearest i) < 2 ^ 53) :
    |rotEntry c i - ((toNearestInt (rotValue c .nearest i) : Int) + 1)| ≤ 1 := by
  have hs : 2 ^ (bits64 (toNearestInt (rotValue c .nearest i)) - 53) = 1 := by
    rw [Nat.sub_eq_zero_of_le (bits64_le_iff.mpr hn)]; rfl
  obtain ⟨h1, h2, -⟩ := decidedEntry_near (c := c) (t := .rot) (k := i) (lo := toNearestInt (rotValue c .low i))
    (near := toNearestInt (rotValue c .nearest i)) (hi := toNearestInt (rotValue c .high i))
  rw [hs] at h1 h2
  unfold rotEntry
  rw [if_neg (by simp [h0, isFinite64_iff.mpr hv]), abs_le]
  generalize decidedEntry c .rot i _ _ _ = d at h1 h2 ⊢
  generalize toNearestInt (rotValue c .nearest i) = n at h1 h2 ⊢
  show (-1 : Int) ≤ (d : Int) + 1 - ((n : Int) + 1) ∧ (d : Int) + 1 - ((n : Int) + 1) ≤ 1
  omega

/-- R111: an entry of `LUT` is within 1 of what a correctly rounding library gives, below `2^53`. -/
theorem lutEntry_near {c : Config} {mag : Rounding → Nat} {k : Nat} (hv : lutValue c (mag .high) .high k < inf64)
    (hn : toFloorInt (lutValue c (mag .nearest) .nearest k) < 2 ^ 53) :
    |lutEntry c mag k - ((toFloorInt (lutValue c (mag .nearest) .nearest k) : Int) - ((2 ^ (c.oeN - 1) : Nat) : Int))| ≤ 1 := by
  have hs : 2 ^ (bits64 (toFloorInt (lutValue c (mag .nearest) .nearest k)) - 53) = 1 := by
    rw [Nat.sub_eq_zero_of_le (bits64_le_iff.mpr hn)]; rfl
  obtain ⟨h1, h2, -⟩ := decidedEntry_near (c := c) (t := .lut) (k := k) (lo := toFloorInt (lutValue c (mag .low) .low k))
    (near := toFloorInt (lutValue c (mag .nearest) .nearest k)) (hi := toFloorInt (lutValue c (mag .high) .high k))
  rw [hs] at h1 h2
  unfold lutEntry
  rw [if_pos (isFinite64_iff.mpr hv), abs_le]
  generalize decidedEntry c .lut k _ _ _ = d at h1 h2 ⊢
  generalize toFloorInt (lutValue c (mag .nearest) .nearest k) = n at h1 h2 ⊢
  generalize ((2 ^ (c.oeN - 1) : Nat) : Int) = b
  show (-1 : Int) ≤ (d : Int) - b - ((n : Int) - b) ∧ (d : Int) - b - ((n : Int) - b) ≤ 1
  omega

/-- The double pi of R111 is the nearest to pi: it is off by less than half of its quantum `2^-51`. -/
theorem pi64_nearest : |(7074237752028440 / 2 ^ 51 : ℝ) - Real.pi| < 1 / 2 ^ 52 := by
  have h1 := Real.pi_gt_d20
  have h2 := Real.pi_lt_d20
  rw [abs_lt]
  constructor <;> norm_num at * <;> linarith

end Sys2Proof.Machine
end

