-- ==== Sys2Proof/Laws/State.lean ====
section
/-! SUPPORT. One lemma per field per update of the state and of the registers, so that no proof unfolds a record update. -/

namespace Sys2Proof.Machine

variable (s : State) (r : Regs) (rom : Rom) (n : Nat) (a : QueryAnswer) (ms : List HostMove) (b : Bool)

@[simp] theorem State.withRegs_cfg : (s.withRegs r).cfg = s.cfg := rfl
@[simp] theorem State.withRegs_rom : (s.withRegs r).rom = s.rom := rfl
@[simp] theorem State.withRegs_messages : (s.withRegs r).messages = s.messages := rfl
@[simp] theorem State.withRegs_answer : (s.withRegs r).answer = s.answer := rfl
@[simp] theorem State.withRegs_regs : (s.withRegs r).regs = r := rfl
@[simp] theorem State.withRegs_pending : (s.withRegs r).pending = s.pending := rfl

@[simp] theorem State.withRom_cfg : (s.withRom rom).cfg = s.cfg := rfl
@[simp] theorem State.withRom_rom : (s.withRom rom).rom = some rom := rfl
@[simp] theorem State.withRom_messages : (s.withRom rom).messages = s.messages := rfl
@[simp] theorem State.withRom_answer : (s.withRom rom).answer = s.answer := rfl
@[simp] theorem State.withRom_regs : (s.withRom rom).regs = s.regs := rfl
@[simp] theorem State.withRom_pending : (s.withRom rom).pending = s.pending := rfl

@[simp] theorem State.withMessages_cfg : (s.withMessages n).cfg = s.cfg := rfl
@[simp] theorem State.withMessages_rom : (s.withMessages n).rom = s.rom := rfl
@[simp] theorem State.withMessages_messages : (s.withMessages n).messages = n := rfl
@[simp] theorem State.withMessages_answer : (s.withMessages n).answer = s.answer := rfl
@[simp] theorem State.withMessages_regs : (s.withMessages n).regs = s.regs := rfl
@[simp] theorem State.withMessages_pending : (s.withMessages n).pending = s.pending := rfl

@[simp] theorem State.withAnswer_cfg : (s.withAnswer a).cfg = s.cfg := rfl
@[simp] theorem State.withAnswer_rom : (s.withAnswer a).rom = s.rom := rfl
@[simp] theorem State.withAnswer_messages : (s.withAnswer a).messages = s.messages := rfl
@[simp] theorem State.withAnswer_answer : (s.withAnswer a).answer = some a := rfl
@[simp] theorem State.withAnswer_regs : (s.withAnswer a).regs = s.regs := rfl
@[simp] theorem State.withAnswer_pending : (s.withAnswer a).pending = s.pending := rfl

@[simp] theorem State.withPending_cfg : (s.withPending ms).cfg = s.cfg := rfl
@[simp] theorem State.withPending_rom : (s.withPending ms).rom = s.rom := rfl
@[simp] theorem State.withPending_messages : (s.withPending ms).messages = s.messages := rfl
@[simp] theorem State.withPending_answer : (s.withPending ms).answer = s.answer := rfl
@[simp] theorem State.withPending_regs : (s.withPending ms).regs = s.regs := rfl
@[simp] theorem State.withPending_pending : (s.withPending ms).pending = ms := rfl

@[simp] theorem Regs.setValid_st : (r.setValid b).st = r.st := rfl
@[simp] theorem Regs.setValid_i : (r.setValid b).i = r.i := rfl
@[simp] theorem Regs.setValid_x : (r.setValid b).x = r.x := rfl
@[simp] theorem Regs.setValid_y : (r.setValid b).y = r.y := rfl
@[simp] theorem Regs.setValid_z : (r.setValid b).z = r.z := rfl
@[simp] theorem Regs.setValid_fc : (r.setValid b).fc = r.fc := rfl
@[simp] theorem Regs.setValid_fs : (r.setValid b).fs = r.fs := rfl
@[simp] theorem Regs.setValid_tr : (r.setValid b).tr = r.tr := rfl
@[simp] theorem Regs.setValid_cosQ : (r.setValid b).cosQ = r.cosQ := rfl
@[simp] theorem Regs.setValid_sinQ : (r.setValid b).sinQ = r.sinQ := rfl
@[simp] theorem Regs.setValid_validQ : (r.setValid b).validQ = some b := rfl

section Loaded
variable (c : Config) (p : Nat) (t : Bool) (v : Vec)
@[simp] theorem Regs.loaded_st : (r.loaded c p t v).st = some SeqCode.run := rfl
@[simp] theorem Regs.loaded_i : (r.loaded c p t v).i = some 0 := rfl
@[simp] theorem Regs.loaded_x : (r.loaded c p t v).x = some v.x := rfl
@[simp] theorem Regs.loaded_y : (r.loaded c p t v).y = some v.y := rfl
@[simp] theorem Regs.loaded_z : (r.loaded c p t v).z = some v.z := rfl
@[simp] theorem Regs.loaded_fc : (r.loaded c p t v).fc = some (flipCos c p) := rfl
@[simp] theorem Regs.loaded_fs : (r.loaded c p t v).fs = some (flipSin c p) := rfl
@[simp] theorem Regs.loaded_tr : (r.loaded c p t v).tr = some t := rfl
@[simp] theorem Regs.loaded_cosQ : (r.loaded c p t v).cosQ = r.cosQ := rfl
@[simp] theorem Regs.loaded_sinQ : (r.loaded c p t v).sinQ = r.sinQ := rfl
@[simp] theorem Regs.loaded_validQ : (r.loaded c p t v).validQ = some false := rfl
end Loaded

section Iterated
variable (c : Config) (k : Nat) (v : Vec)
@[simp] theorem Regs.iterated_st :
    (r.iterated c k v).st = if k + 1 = c.repsN then some SeqCode.fin else r.st := by
  unfold Regs.iterated; split <;> rfl
@[simp] theorem Regs.iterated_i :
    (r.iterated c k v).i = if k + 1 = c.repsN then r.i else some (k + 1) := by
  unfold Regs.iterated; split <;> rfl
@[simp] theorem Regs.iterated_x : (r.iterated c k v).x = some v.x := by unfold Regs.iterated; split <;> rfl
@[simp] theorem Regs.iterated_y : (r.iterated c k v).y = some v.y := by unfold Regs.iterated; split <;> rfl
@[simp] theorem Regs.iterated_z : (r.iterated c k v).z = some v.z := by unfold Regs.iterated; split <;> rfl
@[simp] theorem Regs.iterated_fc : (r.iterated c k v).fc = r.fc := by unfold Regs.iterated; split <;> rfl
@[simp] theorem Regs.iterated_fs : (r.iterated c k v).fs = r.fs := by unfold Regs.iterated; split <;> rfl
@[simp] theorem Regs.iterated_tr : (r.iterated c k v).tr = r.tr := by unfold Regs.iterated; split <;> rfl
@[simp] theorem Regs.iterated_cosQ : (r.iterated c k v).cosQ = r.cosQ := by unfold Regs.iterated; split <;> rfl
@[simp] theorem Regs.iterated_sinQ : (r.iterated c k v).sinQ = r.sinQ := by unfold Regs.iterated; split <;> rfl
@[simp] theorem Regs.iterated_validQ : (r.iterated c k v).validQ = some false := by
  unfold Regs.iterated; split <;> rfl
end Iterated

section Finished
variable (a b : SVal)
@[simp] theorem Regs.finished_st : (r.finished a b).st = some SeqCode.idle := rfl
@[simp] theorem Regs.finished_i : (r.finished a b).i = r.i := rfl
@[simp] theorem Regs.finished_x : (r.finished a b).x = r.x := rfl
@[simp] theorem Regs.finished_y : (r.finished a b).y = r.y := rfl
@[simp] theorem Regs.finished_z : (r.finished a b).z = r.z := rfl
@[simp] theorem Regs.finished_fc : (r.finished a b).fc = r.fc := rfl
@[simp] theorem Regs.finished_fs : (r.finished a b).fs = r.fs := rfl
@[simp] theorem Regs.finished_tr : (r.finished a b).tr = r.tr := rfl
@[simp] theorem Regs.finished_cosQ : (r.finished a b).cosQ = some a := rfl
@[simp] theorem Regs.finished_sinQ : (r.finished a b).sinQ = some b := rfl
@[simp] theorem Regs.finished_validQ : (r.finished a b).validQ = some true := rfl
end Finished

end Sys2Proof.Machine
end

