-- ==== Sys2Proof/Laws/Ops.lean ====
section
/-! SUPPORT. What each shared operation answers: the reads, the width check and the arithmetic shift. -/

namespace Sys2Proof.Machine

/-- A register read succeeds exactly on a register that holds the value. -/
@[simp] theorem readReg_ok_iff {α : Type} {r : Option α} {v : α} : readReg r = .ok v ↔ r = some v := by
  cases r <;> simp [readReg]

@[simp] theorem readReg_some {α : Type} (v : α) : readReg (some v) = .ok v := rfl

@[simp] theorem readReg_none {α : Type} : readReg (none : Option α) = .error .undefRead := rfl

/-- A table read succeeds exactly on an address inside the table, with the entry there (R55, R57). -/
@[simp] theorem readEntry_ok_iff {α : Type} {l : List α} {k : Nat} {v : α} :
    readEntry l k = .ok v ↔ l[k]? = some v := by
  unfold readEntry; split <;> simp_all

/-- A table read inside the table gives the entry. -/
theorem readEntry_of_lt {α : Type} {l : List α} {k : Nat} (h : k < l.length) : readEntry l k = .ok l[k] := by
  simp [h]

/-- A table read can only fail with `FAULT_ADDR`, and only outside the table (R57). -/
theorem readEntry_error_iff {α : Type} {l : List α} {k : Nat} {f : Fault} :
    readEntry l k = .error f ↔ l.length ≤ k ∧ f = .addr := by
  unfold readEntry; split <;> simp_all <;> aesop

/-- `fits_N` for a width of at least one bit (R13). -/
theorem fits_succ_iff {m : Nat} {a : Int} : fits (m + 1) a = true ↔ -(2 : Int) ^ m ≤ a ∧ a < (2 : Int) ^ m := by
  simp [fits]

/-- A value strictly inside `(-2^(N-1), 2^(N-1))` fits, and so does its negation. -/
theorem fits_of_abs_lt {m : Nat} {a b : Int} (h : |a| ≤ b) (hb : b < (2 : Int) ^ m) : fits (m + 1) a = true := by
  rw [fits_succ_iff]; have := abs_le.mp h; omega

/-- The shift is floor division (R12). -/
theorem asr_eq (a : Int) (s : Nat) : asr a s = a / (2 : Int) ^ s := by simp [asr]

/-- The shift between its two bounds: `2^s * (a >>> s) <= a < 2^s * (a >>> s) + 2^s`. -/
theorem asr_bounds (a : Int) (s : Nat) :
    (2 : Int) ^ s * asr a s ≤ a ∧ a < (2 : Int) ^ s * asr a s + (2 : Int) ^ s := by
  have hp : (0 : Int) < 2 ^ s := by positivity
  rw [asr_eq]
  constructor
  · exact Int.mul_ediv_self_le (ne_of_gt hp)
  · exact Int.lt_mul_ediv_self_add hp

/-- A negated value shifts to the negated shift, or to one less (R138). -/
theorem asr_neg (a : Int) (s : Nat) :
    asr (-a) s = if (2 : Int) ^ s ∣ a then -asr a s else -asr a s - 1 := by
  have hp : (0 : Int) < 2 ^ s := by positivity
  simp only [asr_eq]
  split
  · next h => exact Int.neg_ediv_of_dvd h
  · next h =>
    have h1 := Int.emod_add_mul_ediv a (2 ^ s)
    have h2 := Int.emod_nonneg a (ne_of_gt hp)
    have h3 := Int.emod_lt_of_pos a hp
    have h4 : a % 2 ^ s ≠ 0 := fun h' => h (Int.dvd_of_emod_eq_zero h')
    exact ((Int.ediv_emod_unique (r := 2 ^ s - a % 2 ^ s) hp).mpr
      ⟨by linear_combination -h1, by omega, by omega⟩).1

end Sys2Proof.Machine
end

