-- ==== Sys2Proof/Laws/Exec.lean ====
section
/-! SUPPORT. What each meaning answers: when it completes and with which registers (one lemma a meaning), and, the other way,
everything a completed instruction can have done. -/

namespace Sys2Proof.Machine

variable {s t : State} {c : Config} {rom : Rom}

@[simp] theorem raise_ne_next {f : Fault} : raise f ≠ .next t := by simp [raise]

/-- The tables of a built core. -/
theorem tables_of_rom (h : s.rom = some rom) : s.tables = rom := by simp [State.tables, h]

/-! ### The reads -/

/-- ITER's register reads succeed exactly when `i`, `x`, `y` and `z` hold values. -/
theorem readIter_ok_iff {r : Regs} {i : Nat} {v : Vec} :
    readIter r = .ok (i, v) ↔ r.i = some i ∧ r.x = some v.x ∧ r.y = some v.y ∧ r.z = some v.z := by
  obtain ⟨x, y, z⟩ := v
  unfold readIter
  cases r.i <;> cases r.x <;> cases r.y <;> cases r.z <;> simp

/-- FINISH's register reads succeed exactly when `x`, `y`, `fc` and `fs` hold values. -/
theorem readFinish_ok_iff {r : Regs} {x y : SVal} {fc fs : Bool} :
    readFinish r = .ok ((x, y), (fc, fs)) ↔ r.x = some x ∧ r.y = some y ∧ r.fc = some fc ∧ r.fs = some fs := by
  unfold readFinish
  cases r.x <;> cases r.y <;> cases r.fc <;> cases r.fs <;> simp [and_assoc]

/-- Iteration `n` is defined exactly inside the tables, and rotates by their entries. -/
theorem rotateAt_ok_iff {n : Nat} {v w : Vec} :
    rotateAt rom n v = .ok w ↔ ∃ k r, rom.shift[n]? = some k ∧ rom.rot[n]? = some r ∧ w = rotate k r v := by
  unfold rotateAt readEntry
  cases rom.shift[n]? <;> cases rom.rot[n]? <;> simp [eq_comm]

/-- The load is defined exactly when both addresses are inside `LUT`. -/
theorem loadVec_ok_iff {p : Nat} {v : Vec} :
    loadVec c rom p = .ok v ↔ ∃ a b, rom.lut[phaseIndex c p]? = some a ∧ rom.lut[mirrorIndex c p]? = some b ∧
      v = ⟨if phaseQ0 c p then a else b, if phaseQ0 c p then b else a, startZ c p⟩ := by
  unfold loadVec startXY readEntry
  cases rom.lut[phaseIndex c p]? <;> cases rom.lut[mirrorIndex c p]? <;> simp
  cases phaseQ0 c p <;> simp [eq_comm]

/-! ### The meanings -/

/-- The load completes exactly when the entries exist and fit, and then writes the registers of R142. -/
theorem load_next_iff {tr : Bool} {p : Nat} :
    load tr p s = .next t ↔ ∃ v, loadVec s.cfg s.tables (portPhase s.cfg p) = .ok v ∧ v.fits s.cfg = true ∧
      t = s.withRegs (s.regs.loaded s.cfg (portPhase s.cfg p) tr v) := by
  unfold load
  split
  · next h => simp [h]
  · next v h =>
    by_cases hf : v.fits s.cfg = true
    · simp only [hf, if_true, h, Host.Outcome.next.injEq, Except.ok.injEq]
      exact ⟨fun e => ⟨v, rfl, hf, e.symm⟩, fun ⟨_, e, _, e'⟩ => by subst e; exact e'.symm⟩
    · simp [h, hf]

/-- ITER completes exactly when its registers hold values, its addresses are in range and the new vector fits. -/
theorem execIter_next_iff :
    execIter s = .next t ↔ ∃ i v w, readIter s.regs = .ok (i, v) ∧ rotateAt s.tables i v = .ok w ∧ w.fits s.cfg = true ∧
      t = s.withRegs (s.regs.iterated s.cfg i w) := by
  unfold execIter
  split
  · next h => simp [h]
  · next i v h =>
    split
    · next h2 => simp only [raise_ne_next, h, false_iff]; rintro ⟨_, _, _, h', h3, -⟩; cases h'; simp [h2] at h3
    · next w h2 =>
      constructor
      · intro h3
        by_cases hf : w.fits s.cfg = true
        · simp only [hf, if_true, Host.Outcome.next.injEq] at h3
          exact ⟨i, v, w, h, h2, hf, h3.symm⟩
        · simp [hf] at h3
      · rintro ⟨i', v', w', h', h2', hf, rfl⟩
        rw [h] at h'; cases h'
        rw [h2] at h2'; cases h2'
        simp [hf]

/-- The values FINISH forms from these registers fit (R145). -/
theorem finishFits_iff {fc fs : Bool} {v : Vec} :
    finishFits c fc fs v = true ↔ negationFits c fc v.x = true ∧ negationFits c fs v.y = true ∧
      fits c.wOut (outputOf c fc v.x) = true ∧ fits c.wOut (outputOf c fs v.y) = true := by
  simp [finishFits, and_assoc]

/-- FINISH completes exactly when its registers hold values and everything it forms fits. -/
theorem execFinish_next_iff :
    execFinish s = .next t ↔ ∃ x y fc fs, readFinish s.regs = .ok ((x, y), (fc, fs)) ∧
      negationFits s.cfg fc x = true ∧ negationFits s.cfg fs y = true ∧
      fits s.cfg.wOut (outputOf s.cfg fc x) = true ∧ fits s.cfg.wOut (outputOf s.cfg fs y) = true ∧
      t = s.withRegs (s.regs.finished (outputOf s.cfg fc x) (outputOf s.cfg fs y)) := by
  unfold execFinish
  split
  · next h => simp [h]
  · next x y fc fs h =>
    constructor
    · intro h3
      by_cases h4 : negationFits s.cfg fc x && negationFits s.cfg fs y
      · by_cases h5 : fits s.cfg.wOut (outputOf s.cfg fc x) && fits s.cfg.wOut (outputOf s.cfg fs y)
        · simp only [h4, h5, if_true, Host.Outcome.next.injEq] at h3
          simp only [Bool.and_eq_true] at h4 h5
          exact ⟨x, y, fc, fs, h, h4.1, h4.2, h5.1, h5.2, h3.symm⟩
        · simp [h4, h5] at h3
      · simp [h4] at h3
    · rintro ⟨x', y', fc', fs', h', h1, h2, h3, h4, rfl⟩
      rw [h] at h'; cases h'
      simp [h1, h2, h3, h4]

/-- The messages of a generation, as a number: `DIAG_UNIFORM` itself (R176). -/
theorem messageCount_eq : messageCount rom = rom.diagUniform.toNat := by
  unfold messageCount; cases rom.diagUniform <;> rfl

/-- GENERATE completes exactly on an accepted configuration, with the generated tables. -/
theorem execGenerate_next_iff :
    execGenerate s = .next t ↔ configError s.cfg = none ∧ widthsFit s.cfg (generateRom s.cfg) = true ∧
      t = (s.withRom (generateRom s.cfg)).withMessages (s.messages + messageCount (generateRom s.cfg)) := by
  unfold execGenerate
  split
  · next h => simp [h]
  · next h =>
    by_cases hf : widthsFit s.cfg (generateRom s.cfg) = true
    · simp only [hf, if_true, h, Host.Outcome.next.injEq, true_and]
      exact eq_comm
    · simp [h, hf]

/-- The elaboration of an accepted configuration leaves the core at power-up, its message counted (R176, R231, R232). -/
theorem execGenerate_unbuilt {c : Config} (h1 : configError c = none) (h2 : widthsFit c (generateRom c) = true) :
    execGenerate (State.unbuilt c) = .next (State.powerUp c (generateRom c)) := by
  refine execGenerate_next_iff.mpr ⟨h1, h2, ?_⟩
  simp [State.unbuilt, State.powerUp, State.withRom, State.withMessages, messageCount_eq]

/-- EVERYTHING A COMPLETED INSTRUCTION CAN HAVE DONE, one case an instruction. -/
theorem exec_cases {i : Instr} (h : exec i s = .next t) :
    (i = .reset ∧ t = s.withRegs Regs.reset) ∨
    (i = .nop ∧ t = s.withRegs (s.regs.setValid false)) ∨
    (∃ tr p v, (i = if tr then .sincosT p else .sincos p) ∧
      loadVec s.cfg s.tables (portPhase s.cfg p) = .ok v ∧ v.fits s.cfg = true ∧
      t = s.withRegs (s.regs.loaded s.cfg (portPhase s.cfg p) tr v)) ∨
    (i = .iter ∧ ∃ k v w, readIter s.regs = .ok (k, v) ∧ rotateAt s.tables k v = .ok w ∧ w.fits s.cfg = true ∧
      t = s.withRegs (s.regs.iterated s.cfg k w)) ∨
    (i = .finish ∧ ∃ x y fc fs, readFinish s.regs = .ok ((x, y), (fc, fs)) ∧
      negationFits s.cfg fc x = true ∧ negationFits s.cfg fs y = true ∧
      fits s.cfg.wOut (outputOf s.cfg fc x) = true ∧ fits s.cfg.wOut (outputOf s.cfg fs y) = true ∧
      t = s.withRegs (s.regs.finished (outputOf s.cfg fc x) (outputOf s.cfg fs y))) ∨
    (i = .generate ∧ configError s.cfg = none ∧ widthsFit s.cfg (generateRom s.cfg) = true ∧
      t = (s.withRom (generateRom s.cfg)).withMessages (s.messages + messageCount (generateRom s.cfg))) ∨
    (i = .query ∧ t = s.withAnswer (queryAnswer s.cfg)) := by
  cases i with
  | reset => exact .inl ⟨rfl, (Host.Outcome.next.inj h).symm⟩
  | nop => exact .inr (.inl ⟨rfl, (Host.Outcome.next.inj h).symm⟩)
  | sincos p =>
    obtain ⟨v, h1, h2, h3⟩ := load_next_iff.mp h
    exact .inr (.inr (.inl ⟨false, p, v, rfl, h1, h2, h3⟩))
  | sincosT p =>
    obtain ⟨v, h1, h2, h3⟩ := load_next_iff.mp h
    exact .inr (.inr (.inl ⟨true, p, v, rfl, h1, h2, h3⟩))
  | iter => exact .inr (.inr (.inr (.inl ⟨rfl, execIter_next_iff.mp h⟩)))
  | finish => exact .inr (.inr (.inr (.inr (.inl ⟨rfl, execFinish_next_iff.mp h⟩))))
  | rsvd => exact absurd h raise_ne_next
  | generate => exact .inr (.inr (.inr (.inr (.inr (.inl ⟨rfl, execGenerate_next_iff.mp h⟩)))))
  | query => exact .inr (.inr (.inr (.inr (.inr (.inr ⟨rfl, (Host.Outcome.next.inj h).symm⟩)))))

end Sys2Proof.Machine
end

