-- ==== Sys2Proof/Laws/Runs.lean ====
section
/-! SUPPORT. What check 9 of R201 says of one phase: every vector of its evaluation exists and fits, and so does its result. -/

namespace Sys2Proof.Machine

variable {c : Config} {rom : Rom}

/-- A bounded check holds of every number below the bound. -/
theorem allBelow_iff {f : Nat → Bool} : ∀ {n : Nat}, allBelow n f = true ↔ ∀ k < n, f k = true
  | 0 => by simp [allBelow]
  | n + 1 => by
    rw [allBelow, Bool.and_eq_true, allBelow_iff]
    constructor
    · rintro ⟨h1, h2⟩ k hk
      rcases Nat.lt_succ_iff_lt_or_eq.mp hk with h | rfl
      · exact h2 k h
      · exact h1
    · exact fun h => ⟨h n (by omega), fun k hk => h k (by omega)⟩

/-- A phase below `2^INB` is what the port carries (R73). -/
theorem portPhase_of_lt {p : Nat} (h : p < c.fullCircle) : portPhase c p = p := Nat.mod_eq_of_lt h

theorem portPhase_lt (p : Nat) : portPhase c p < c.fullCircle := Nat.mod_lt _ (by unfold Config.fullCircle; positivity)

/-- The parts of check 9. -/
theorem widthsFit_iff : widthsFit c rom = true ↔ (∀ r ∈ rom.rot, fits c.wZ r = true) ∧
    (∀ e ∈ rom.lut, fits c.wXY e = true) ∧ (∀ k ∈ rom.shift, k < 2 ^ c.wS) ∧ c.repsN - 1 < 2 ^ c.wI ∧
    ∀ p < c.fullCircle, phaseFits c rom p = true := by
  simp only [widthsFit, Bool.and_eq_true, List.all_eq_true, decide_eq_true_eq, allBelow_iff, and_assoc]

/-- The remaining `m` iterations of a run that fits. -/
theorem runFits_rotateN {fc fs : Bool} {v0 : Vec} : ∀ {m n : Nat} {v : Vec}, rotateN rom n v0 = .ok v →
    runFits c rom fc fs m n v = true →
    (∀ j, 0 < j → j ≤ m → ∃ w, rotateN rom (n + j) v0 = .ok w ∧ w.fits c = true) ∧
    ∃ w, rotateN rom (n + m) v0 = .ok w ∧ finishFits c fc fs w = true
  | 0, n, v, hv, h => ⟨fun j h1 h2 => by omega, v, hv, h⟩
  | m + 1, n, v, hv, h => by
    simp only [runFits] at h
    split at h
    · next w hw =>
      simp only [Bool.and_eq_true] at h
      have hn : rotateN rom (n + 1) v0 = .ok w := by simp only [rotateN, hv, hw]
      obtain ⟨ih1, ih2⟩ := runFits_rotateN hn h.2
      refine ⟨fun j h1 h2 => ?_, by rwa [Nat.add_assoc, Nat.add_comm 1 m] at ih2⟩
      rcases Nat.eq_or_lt_of_le h1 with rfl | h1
      · exact ⟨w, hn, h.1⟩
      · obtain ⟨w', hw'⟩ := ih1 (j - 1) (by omega) (by omega)
        exact ⟨w', by rwa [show n + 1 + (j - 1) = n + j by omega] at hw'⟩
    · simp at h

/-- Every vector of the evaluation of a phase exists and fits its registers, and its result fits (R148, R201). -/
theorem Legal.vecAt_fits (h : Legal c rom) {p : Nat} (hp : p < c.fullCircle) {n : Nat} (hn : n ≤ c.repsN) :
    ∃ v, vecAt c rom p n = .ok v ∧ v.fits c = true ∧
      (n = c.repsN → finishFits c (flipCos c p) (flipSin c p) v = true) := by
  have hf := (widthsFit_iff.mp h.widths).2.2.2.2 p hp
  unfold phaseFits at hf
  split at hf
  · next v hv =>
    simp only [Bool.and_eq_true] at hf
    have hvec : ∀ k, vecAt c rom p k = rotateN rom k v := by
      intro k; simp only [vecAt, portPhase_of_lt hp, hv]
    obtain ⟨h1, w, hw, hw'⟩ := runFits_rotateN (v0 := v) (n := 0) rfl hf.2
    rw [Nat.zero_add] at hw
    rcases Nat.eq_zero_or_pos n with rfl | h0
    · refine ⟨v, hvec 0, hf.1, fun hr => ?_⟩
      rw [← hr] at hw; cases hw; exact hw'
    · obtain ⟨w2, hw2, hf2⟩ := h1 n h0 hn
      rw [Nat.zero_add] at hw2
      refine ⟨w2, (hvec n).trans hw2, hf2, fun hr => ?_⟩
      rw [hr, hw] at hw2; cases hw2; exact hw'
  · simp at hf

/-- The vector before the next iteration is the rotation of the one before it (R136, R137). -/
theorem vecAt_succ {p n : Nat} {v : Vec} (h : vecAt c rom p n = .ok v) :
    vecAt c rom p (n + 1) = rotateAt rom n v := by
  unfold vecAt at h ⊢
  split at h
  · next v0 hv0 => simp only [rotateN, h]
  · simp at h

/-- The vector before iteration 0 is the loaded one (R142). -/
theorem vecAt_zero (p : Nat) : vecAt c rom p 0 = loadVec c rom (portPhase c p) := by
  unfold vecAt; split <;> simp_all [rotateN]

end Sys2Proof.Machine
end

