-- ==== Sys2Proof/Laws/Decode.lean ====
section
/-! SUPPORT. The decode word as arithmetic: the fields of a packed word, and what its decode is. -/

namespace Sys2Proof

/-- The command as the phase port carries it (R73). -/
def Command.atPort (c : Config) (cmd : Command) : Command := { cmd with phase := cmd.phase % 2 ^ c.inb }

/-- The five bits of a decode word above the phase: `{st, rst, start, trace_en}` (R75). -/
def headBits (st : SeqCode) (cmd : Command) : Nat :=
  8 * st.toNat + (4 * bitVal cmd.rst + 2 * bitVal cmd.start + bitVal cmd.traceEn)

theorem bitVal_lt (b : Bool) : bitVal b < 2 := by cases b <;> decide

/-- The control bits of a command are three bits. -/
theorem controlBits_lt (cmd : Command) : 4 * bitVal cmd.rst + 2 * bitVal cmd.start + bitVal cmd.traceEn < 8 := by
  have h1 := bitVal_lt cmd.rst
  have h2 := bitVal_lt cmd.start
  have h3 := bitVal_lt cmd.traceEn
  omega

/-- A decode word is its five upper bits and the phase (R75). -/
theorem packDW_eq (c : Config) (st : SeqCode) (cmd : Command) :
    packDW c st (packCmd c cmd) = 2 ^ c.inb * headBits st cmd + cmd.phase % 2 ^ c.inb := by
  simp only [packDW, packCmd, headBits, pow_add]; ring

/-- A number below `2^n * a` with quotient `q` by `2^n`. -/
theorem mul_add_lt_pow {n k q r : Nat} (hq : q < 2 ^ k) (hr : r < 2 ^ n) : 2 ^ n * q + r < 2 ^ (n + k) := by
  calc 2 ^ n * q + r < 2 ^ n * q + 2 ^ n := by omega
    _ = 2 ^ n * (q + 1) := by ring
    _ ≤ 2 ^ n * 2 ^ k := Nat.mul_le_mul_left _ hq
    _ = 2 ^ (n + k) := (pow_add 2 n k).symm

/-- A decode word has `INB + 5` bits (R75). -/
theorem packDW_lt (c : Config) (st : SeqCode) (cmd : Command) :
    packDW c st (packCmd c cmd) < 2 ^ (c.inb + 5) := by
  rw [packDW_eq]
  refine mul_add_lt_pow ?_ (Nat.mod_lt _ (by positivity))
  have h1 := st.isLt
  have h2 := controlBits_lt cmd
  unfold headBits; omega

/-- The `st` field of a packed decode word. -/
theorem dwSeq_packDW (c : Config) (st : SeqCode) (cmd : Command) :
    dwSeq c (packDW c st (packCmd c cmd)) = st := by
  have hm : cmd.phase % 2 ^ c.inb < 2 ^ c.inb := Nat.mod_lt _ (by positivity)
  have h2 := controlBits_lt cmd
  have : packDW c st (packCmd c cmd) / 2 ^ (c.inb + 3) = st.toNat := by
    rw [packDW_eq, pow_add, ← Nat.div_div_eq_div_mul, Nat.mul_add_div (by positivity), Nat.div_eq_of_lt hm]
    unfold headBits; omega
  simp [dwSeq, this]

/-- A bit of a packed decode word above the phase is a bit of the head. -/
theorem testBit_packDW (c : Config) (st : SeqCode) (cmd : Command) (j : Nat) :
    (packDW c st (packCmd c cmd)).testBit (c.inb + j) = (headBits st cmd).testBit j := by
  rw [packDW_eq, Nat.testBit_two_pow_mul_add _ (Nat.mod_lt _ (by positivity))]
  simp

/-- The command fields of a packed decode word: the command, its phase as the port carries it. -/
theorem unpackCmd_packDW (c : Config) (st : SeqCode) (cmd : Command) :
    unpackCmd c (packDW c st (packCmd c cmd)) = cmd.atPort c := by
  have hbits : ∀ (st : SeqCode) (r s t : Bool),
      let n := 8 * st.toNat + (4 * bitVal r + 2 * bitVal s + bitVal t)
      n.testBit 2 = r ∧ n.testBit 1 = s ∧ n.testBit 0 = t := by decide
  have h0 := testBit_packDW c st cmd 0
  have h1 := testBit_packDW c st cmd 1
  have h2 := testBit_packDW c st cmd 2
  rw [Nat.add_zero] at h0
  obtain ⟨r, s, t, p⟩ := cmd
  simp only [unpackCmd, h0, h1, h2, Command.atPort, Command.mk.injEq]
  obtain ⟨e2, e1, e0⟩ := hbits st r s t
  exact ⟨e2, e1, e0, by rw [packDW_eq]; simp⟩

/-- THE DECODE OF A CYCLE'S WORD: the classification of R75's table, on the phase as the port carries it. -/
theorem decode_packDW (c : Config) (st : SeqCode) (cmd : Command) :
    decode c (packDW c st (packCmd c cmd)) = .ok (classify st (cmd.atPort c)) := by
  simp only [decode, packDW_lt, dwSeq_packDW, unpackCmd_packDW, if_true]

/-- A five-bit number from its fields. -/
theorem fiveBits : ∀ n < 2 ^ 5, 8 * (n / 8 % 2 ^ 2) + (4 * (n / 4 % 2) + 2 * (n / 2 % 2) + n % 2) = n := by decide

/-- Every decode word is the packing of its own fields, so packing loses nothing. -/
theorem packDW_fields (c : Config) {w : Nat} (hw : w < 2 ^ (c.inb + 5)) :
    packDW c (dwSeq c w) (packCmd c (unpackCmd c w)) = w := by
  have hb : ∀ k, bitVal (w.testBit k) = w / 2 ^ k % 2 := by
    intro k
    rw [Nat.testBit_eq_decide_div_mod_eq]
    unfold bitVal
    rcases Nat.mod_two_eq_zero_or_one (w / 2 ^ k) with h | h <;> simp [h]
  rw [packDW_eq]
  simp only [headBits, unpackCmd, dwSeq, hb, BitVec.toNat_ofNat, Nat.mod_mod]
  have h5 : w / 2 ^ c.inb < 2 ^ 5 := by
    rw [Nat.div_lt_iff_lt_mul (by positivity), ← pow_add, Nat.add_comm 5]; exact hw
  have e1 : w / 2 ^ (c.inb + 1) = w / 2 ^ c.inb / 2 := by rw [pow_add, Nat.div_div_eq_div_mul]; rfl
  have e2 : w / 2 ^ (c.inb + 2) = w / 2 ^ c.inb / 4 := by rw [pow_add, Nat.div_div_eq_div_mul]; rfl
  have e3 : w / 2 ^ (c.inb + 3) = w / 2 ^ c.inb / 8 := by rw [pow_add, Nat.div_div_eq_div_mul]; rfl
  rw [e1, e2, e3]
  have hd := Nat.div_add_mod w (2 ^ c.inb)
  have hh : 8 * (w / 2 ^ c.inb / 8 % 2 ^ 2)
      + (4 * (w / 2 ^ c.inb / 4 % 2) + 2 * (w / 2 ^ c.inb / 2 % 2) + w / 2 ^ c.inb % 2) = w / 2 ^ c.inb :=
    fiveBits _ h5
  rw [hh]; exact hd

end Sys2Proof
end

