-- ==== Sys2Proof/Laws/Step.lean ====
section
/-! SUPPORT. What one step performs, case by case, and what no step changes. -/

namespace Sys2Proof.Machine

variable {s t : State} {rom : Rom} {cmd : Command} {st : SeqCode}

@[simp] theorem dropMove_cfg : (dropMove s).cfg = s.cfg := rfl
@[simp] theorem dropMove_rom : (dropMove s).rom = s.rom := rfl
@[simp] theorem dropMove_regs : (dropMove s).regs = s.regs := rfl
@[simp] theorem dropMove_answer : (dropMove s).answer = s.answer := rfl
@[simp] theorem dropMove_messages : (dropMove s).messages = s.messages := rfl
@[simp] theorem dropMove_pending : (dropMove s).pending = s.pending.tail := rfl
@[simp] theorem dropMove_tables : (dropMove s).tables = s.tables := rfl

@[simp] theorem consumed_cfg : (consumed s).cfg = s.cfg := by unfold consumed; split <;> rfl
@[simp] theorem consumed_rom : (consumed s).rom = s.rom := by unfold consumed; split <;> rfl
@[simp] theorem consumed_regs : (consumed s).regs = s.regs := by unfold consumed; split <;> rfl
@[simp] theorem consumed_tables : (consumed s).tables = s.tables := by unfold State.tables; rw [consumed_rom]

/-- A cycle whose `st` holds a value performs the operation R75's table selects. -/
theorem cycleInstr_of_st (h : s.regs.st = some st) : cycleInstr s cmd = .next (classify st (cmd.atPort s.cfg)) := by
  simp only [cycleInstr, h, decode_packDW]

/-- A step before the tables are built is the generation (R232). -/
theorem step_unbuilt (h : s.rom = none) : step s = exec .generate s := by
  simp only [step, selectInstr, consumed, h]

/-- A step that takes a QUERY (R172). -/
theorem step_query (h : s.rom = some rom) (hm : nextMove s = .query) : step s = exec .query (dropMove s) := by
  simp only [step, selectInstr, consumed, h, hm]

/-- A STEP OF A CYCLE performs the operation that R75's table selects, on the state with the host's move taken. -/
theorem step_cycle (h : s.rom = some rom) (hm : nextMove s = .cycle cmd) (hst : s.regs.st = some st) :
    step s = exec (classify st (cmd.atPort s.cfg)) (dropMove s) := by
  simp only [step, selectInstr, consumed, h, hm, cycleInstr_of_st hst]

/-- A step of a cycle at power-up: `rst = 1` alone selects RESET, anything else reads a register without a value (R231). -/
theorem step_no_st (h : s.rom = some rom) (hm : nextMove s = .cycle cmd) (hst : s.regs.st = none) :
    step s = if cmd.rst then exec .reset (dropMove s) else .fault .undefRead := by
  simp only [step, selectInstr, consumed, h, hm, cycleInstr, hst]
  cases cmd.rst <;> rfl

/-- A cycle with `rst = 1` is RESET, in any state (R230). -/
theorem step_rst (h : s.rom = some rom) (hm : nextMove s = .cycle cmd) (hr : cmd.rst = true) :
    step s = exec .reset (dropMove s) := by
  cases hst : s.regs.st with
  | none => rw [step_no_st h hm hst, if_pos hr]
  | some st => rw [step_cycle h hm hst]; simp [classify, Command.atPort, hr]

/-- A completed step completed the selected operation. -/
theorem step_next (h : step s = .next t) : ∃ i, selectInstr s = .next i ∧ exec i (consumed s) = .next t := by
  unfold step at h
  split at h
  · next i hi => exact ⟨i, hi, h⟩
  · simp at h
  · simp at h

/-- No instruction writes the configuration (R5). -/
theorem exec_cfg {i : Instr} (h : exec i s = .next t) : t.cfg = s.cfg := by
  rcases exec_cases h with ⟨-, rfl⟩ | ⟨-, rfl⟩ | ⟨_, _, _, -, -, -, rfl⟩ | ⟨-, _, _, _, -, -, -, rfl⟩ |
    ⟨-, _, _, _, _, -, -, -, -, -, rfl⟩ | ⟨-, -, -, rfl⟩ | ⟨-, rfl⟩ <;> rfl

/-- No instruction but GENERATE writes the tables (R56). -/
theorem exec_rom {i : Instr} (hi : i ≠ .generate) (h : exec i s = .next t) : t.rom = s.rom := by
  rcases exec_cases h with ⟨-, rfl⟩ | ⟨-, rfl⟩ | ⟨_, _, _, -, -, -, rfl⟩ | ⟨-, _, _, _, -, -, -, rfl⟩ |
    ⟨-, _, _, _, _, -, -, -, -, -, rfl⟩ | ⟨rfl, -, -, rfl⟩ | ⟨-, rfl⟩
  all_goals first | rfl | exact absurd rfl hi

/-- A built core never selects GENERATE (R4). -/
theorem selectInstr_ne_generate {i : Instr} (h : s.rom = some rom) (hi : selectInstr s = .next i) : i ≠ .generate := by
  rintro rfl
  simp only [selectInstr, h] at hi
  split at hi
  · simp at hi
  · next cmd hm =>
    cases hst : s.regs.st with
    | none => simp only [cycleInstr, hst] at hi; split at hi <;> simp at hi
    | some st =>
      rw [cycleInstr_of_st hst, Host.Outcome.next.injEq] at hi
      unfold classify at hi
      split at hi <;> [skip; split at hi <;> [split at hi <;> [split at hi; skip]; split at hi <;> [skip; split at hi]]] <;>
        simp at hi

/-- No step writes the configuration (R5). -/
theorem step_cfg (h : step s = .next t) : t.cfg = s.cfg := by
  obtain ⟨i, -, hx⟩ := step_next h
  rw [exec_cfg hx, consumed_cfg]

/-- No step of a built core writes its tables (R56). -/
theorem step_rom (hr : s.rom = some rom) (h : step s = .next t) : t.rom = some rom := by
  obtain ⟨i, hi, hx⟩ := step_next h
  rw [exec_rom (selectInstr_ne_generate hr hi) hx, consumed_rom, hr]

end Sys2Proof.Machine
end

