-- ==== Sys2Proof/Laws/Invariant.lean ====
section
/-! SUPPORT. What each operation keeps of the registers' invariant, and that none of them faults where it holds. -/

namespace Sys2Proof.Machine

variable {s t : State} {c : Config} {rom : Rom} {r : Regs}

/-- The three width checks of a vector (R13). -/
theorem Vec.fits_iff {v : Vec} :
    v.fits c = true ↔ Machine.fits c.wXY v.x = true ∧ Machine.fits c.wXY v.y = true ∧ Machine.fits c.wZ v.z = true := by
  simp [Vec.fits, and_assoc]

theorem holdsFitting_some {n : Nat} {v : SVal} (h : fits n v = true) : HoldsFitting n (some v) := by
  intro w hw; cases hw; exact h

theorem holdsFitting_none {n : Nat} : HoldsFitting n none := by intro w hw; cases hw

/-- Check 1 of R201. -/
theorem Legal.reps_pos (h : Legal c rom) : 1 ≤ c.repsN := by
  have := h.checks
  unfold configError at this
  split at this
  · simp at this
  · unfold Config.repsN; omega

/-- A legal core's zero fits any register that has a bit. -/
theorem fits_zero {m : Nat} : fits (m + 1) 0 = true := by
  rw [fits_succ_iff]; constructor <;> simp

/-- `W_OUT` is at least one bit: a result of a phase fits it. -/
theorem Legal.wOut_pos (h : Legal c rom) : ∃ m, c.wOut = m + 1 := by
  obtain ⟨v, -, -, hf⟩ := h.vecAt_fits (p := 0) (by unfold Config.fullCircle; positivity) (le_refl c.repsN)
  have := (finishFits_iff.mp (hf rfl)).2.2.1
  rcases hw : c.wOut with _ | m
  · rw [hw] at this; simp [fits] at this
  · exact ⟨m, rfl⟩

/-- RESET gives registers that meet the invariant (R38). -/
theorem Legal.regsOk_reset (h : Legal c rom) : RegsOk c rom Regs.reset := by
  obtain ⟨m, hm⟩ := h.wOut_pos
  have h1 := h.reps_pos
  exact {
    sequencer := .inl ⟨rfl, 0, rfl, by omega⟩
    done := fun _ => rfl
    validHeld := ⟨_, rfl⟩
    traceHeld := ⟨_, rfl⟩
    cosHeld := ⟨0, rfl, by rw [hm]; exact fits_zero⟩
    sinHeld := ⟨0, rfl, by rw [hm]; exact fits_zero⟩
    xFits := holdsFitting_none
    yFits := holdsFitting_none
    zFits := holdsFitting_none }

/-- NOP in state IDLE keeps the invariant. -/
theorem RegsOk.nop (h : RegsOk c rom r) (hst : r.st = some SeqCode.idle) : RegsOk c rom (r.setValid false) where
  sequencer := .inl ⟨hst, by
    rcases h.sequencer with ⟨-, h⟩ | ⟨h, -⟩ | ⟨h, -⟩
    · exact h
    · rw [hst] at h; simp [SeqCode.idle, SeqCode.run] at h
    · rw [hst] at h; simp [SeqCode.idle, SeqCode.fin] at h⟩
  done := fun _ => hst
  validHeld := ⟨_, rfl⟩
  traceHeld := h.traceHeld
  cosHeld := h.cosHeld
  sinHeld := h.sinHeld
  xFits := h.xFits
  yFits := h.yFits
  zFits := h.zFits

/-- The load of a phase keeps the invariant and is the evaluation of that phase before iteration 0 (R142). -/
theorem RegsOk.loaded (hl : Legal c rom) (h : RegsOk c rom r) {p : Nat} (hp : p < c.fullCircle) {v : Vec} {tr : Bool}
    (hv : loadVec c rom p = .ok v) (hf : v.fits c = true) : RegsOk c rom (r.loaded c p tr v) where
  sequencer := .inr (.inl ⟨rfl, 0, rfl, hl.reps_pos, p, v, hp, by rw [vecAt_zero, portPhase_of_lt hp, hv], rfl, rfl, rfl,
    rfl, rfl⟩)
  done := fun h => by simp at h
  validHeld := ⟨_, rfl⟩
  traceHeld := ⟨_, rfl⟩
  cosHeld := h.cosHeld
  sinHeld := h.sinHeld
  xFits := holdsFitting_some (Vec.fits_iff.mp hf).1
  yFits := holdsFitting_some (Vec.fits_iff.mp hf).2.1
  zFits := holdsFitting_some (Vec.fits_iff.mp hf).2.2

/-- An iteration of an evaluation keeps the invariant and is the evaluation one iteration on (R144). -/
theorem RegsOk.iterated (h : RegsOk c rom r) {i : Nat} (hst : r.st = some SeqCode.run) (hi : r.i = some i)
    (hlt : i < c.repsN) {p : Nat} {w : Vec} (hp : p < c.fullCircle) (hv : vecAt c rom p (i + 1) = .ok w)
    (hfc : r.fc = some (flipCos c p)) (hfs : r.fs = some (flipSin c p)) (hf : w.fits c = true) :
    RegsOk c rom (r.iterated c i w) where
  sequencer := by
    by_cases he : i + 1 = c.repsN
    · refine .inr (.inr ⟨by simp [he], by simp [he, hi]; omega, p, w, hp, he ▸ hv, ?_, ?_, ?_, ?_, ?_⟩) <;> simp [hfc, hfs]
    · refine .inr (.inl ⟨by simp [he, hst], i + 1, by simp [he], by omega, p, w, hp, hv, ?_, ?_, ?_, ?_, ?_⟩) <;>
        simp [hfc, hfs]
  done := fun h => by simp at h
  validHeld := ⟨_, Regs.iterated_validQ ..⟩
  traceHeld := by rw [Regs.iterated_tr]; exact h.traceHeld
  cosHeld := by rw [Regs.iterated_cosQ]; exact h.cosHeld
  sinHeld := by rw [Regs.iterated_sinQ]; exact h.sinHeld
  xFits := by rw [Regs.iterated_x]; exact holdsFitting_some (Vec.fits_iff.mp hf).1
  yFits := by rw [Regs.iterated_y]; exact holdsFitting_some (Vec.fits_iff.mp hf).2.1
  zFits := by rw [Regs.iterated_z]; exact holdsFitting_some (Vec.fits_iff.mp hf).2.2

/-- FINISH of an evaluation keeps the invariant (R145). -/
theorem RegsOk.finished (h : RegsOk c rom r) {i : Nat} (hi : r.i = some i) (hlt : i < c.repsN) {a b : SVal}
    (ha : fits c.wOut a = true) (hb : fits c.wOut b = true) : RegsOk c rom (r.finished a b) where
  sequencer := .inl ⟨rfl, i, hi, hlt⟩
  done := fun _ => rfl
  validHeld := ⟨_, rfl⟩
  traceHeld := h.traceHeld
  cosHeld := ⟨_, rfl, ha⟩
  sinHeld := ⟨_, rfl, hb⟩
  xFits := h.xFits
  yFits := h.yFits
  zFits := h.zFits

/-- The load completes on a legal core, whatever the phase (R142, R200). -/
theorem exec_load_ok (hr : s.rom = some rom) (hl : Legal s.cfg rom) (tr : Bool) (p : Nat) :
    ∃ v, loadVec s.cfg rom (portPhase s.cfg p) = .ok v ∧ v.fits s.cfg = true ∧
      load tr p s = .next (s.withRegs (s.regs.loaded s.cfg (portPhase s.cfg p) tr v)) := by
  obtain ⟨v, hv, hf, -⟩ := hl.vecAt_fits (portPhase_lt p) (Nat.zero_le _)
  rw [vecAt_zero, portPhase_of_lt (portPhase_lt p)] at hv
  exact ⟨v, hv, hf, load_next_iff.mpr ⟨v, by rwa [tables_of_rom hr], hf, rfl⟩⟩

/-- ITER completes on the evaluation of a phase, with its next vector (R144, R200). -/
theorem exec_iter_ok (hr : s.rom = some rom) (hl : Legal s.cfg rom) {i p : Nat} {v : Vec} (hi : s.regs.i = some i)
    (hlt : i < s.cfg.repsN) (hp : p < s.cfg.fullCircle) (hv : vecAt s.cfg rom p i = .ok v) (hx : s.regs.x = some v.x)
    (hy : s.regs.y = some v.y) (hz : s.regs.z = some v.z) :
    ∃ w, vecAt s.cfg rom p (i + 1) = .ok w ∧ w.fits s.cfg = true ∧
      execIter s = .next (s.withRegs (s.regs.iterated s.cfg i w)) := by
  obtain ⟨w, hw, hf, -⟩ := hl.vecAt_fits hp (Nat.succ_le_of_lt hlt)
  refine ⟨w, hw, hf, execIter_next_iff.mpr ⟨i, v, w, readIter_ok_iff.mpr ⟨hi, hx, hy, hz⟩, ?_, hf, rfl⟩⟩
  rw [tables_of_rom hr, ← vecAt_succ hv]; exact hw

/-- FINISH completes on a finished evaluation, with the result of its phase (R145, R146). -/
theorem exec_finish_ok (hl : Legal s.cfg rom) {p : Nat} {v : Vec} (hp : p < s.cfg.fullCircle)
    (hv : vecAt s.cfg rom p s.cfg.repsN = .ok v) (hx : s.regs.x = some v.x) (hy : s.regs.y = some v.y)
    (hfc : s.regs.fc = some (flipCos s.cfg p)) (hfs : s.regs.fs = some (flipSin s.cfg p)) :
    let a := outputOf s.cfg (flipCos s.cfg p) v.x
    let b := outputOf s.cfg (flipSin s.cfg p) v.y
    fits s.cfg.wOut a = true ∧ fits s.cfg.wOut b = true ∧ sinCos s.cfg rom p = .ok (a, b) ∧
      execFinish s = .next (s.withRegs (s.regs.finished a b)) := by
  obtain ⟨w, hw, -, hf⟩ := hl.vecAt_fits hp (le_refl _)
  rw [hv] at hw; cases hw
  obtain ⟨h1, h2, h3, h4⟩ := finishFits_iff.mp (hf rfl)
  refine ⟨h3, h4, by simp only [sinCos, hv, portPhase_of_lt hp], execFinish_next_iff.mpr
    ⟨_, _, _, _, readFinish_ok_iff.mpr ⟨hx, hy, hfc, hfs⟩, h1, h2, h3, h4, rfl⟩⟩

/-- The cases of R75's table. -/
theorem classify_cases (st : SeqCode) (cmd : Command) :
    (cmd.rst = true ∧ classify st cmd = .reset) ∨
    (cmd.rst = false ∧ st = SeqCode.idle ∧ cmd.start = false ∧ classify st cmd = .nop) ∨
    (cmd.rst = false ∧ st = SeqCode.idle ∧ cmd.start = true ∧
      classify st cmd = if cmd.traceEn then .sincosT cmd.phase else .sincos cmd.phase) ∨
    (cmd.rst = false ∧ st = SeqCode.run ∧ classify st cmd = .iter) ∨
    (cmd.rst = false ∧ st = SeqCode.fin ∧ classify st cmd = .finish) ∨
    (cmd.rst = false ∧ st = SeqCode.rsvd ∧ classify st cmd = .rsvd) := by
  have hst : ∀ st : SeqCode, st = 0#2 ∨ st = 1#2 ∨ st = 2#2 ∨ st = 3#2 := by decide
  obtain ⟨r, b, tr, p⟩ := cmd
  cases r
  · rcases hst st with rfl | rfl | rfl | rfl <;> cases b <;>
      simp [classify, SeqCode.idle, SeqCode.run, SeqCode.fin, SeqCode.rsvd]
  · simp [classify]

end Sys2Proof.Machine
end

