-- ==== Sys2Proof/Laws/Bounds.lean ====
section
/-! SUPPORT. Bounds on every vector of an evaluation, from the tables alone: `|z| <= B_n` (R148), and a bound on the length of
`(x, y)` that is tight enough for the outputs. Together they give a cheap test for check 9 of R201. -/

namespace Sys2Proof.Machine

variable {c : Config} {rom : Rom}

/-- A configuration that passes checks 1 to 8 (R201), in terms of the natural numbers the operations use. -/
theorem configError_none (h : configError c = none) :
    1 ≤ c.repsN ∧ 1 ≤ c.ibN ∧ 1 ≤ c.cbN + c.zeN ∧ 1 ≤ c.oeN ∧ 1 ≤ c.scaleN := by
  unfold configError at h
  unfold Config.repsN Config.ibN Config.cbN Config.zeN Config.oeN Config.scaleN
  repeat' split at h
  all_goals first | (simp at h; done) | (refine ⟨?_, ?_, ?_, ?_, ?_⟩ <;> omega)

/-- The residual operand before the fold is in `[0, ZF - 2^ZE]` (R72). -/
theorem residual_range (p : Nat) : 0 ≤ residual c p ∧ residual c p ≤ c.zf - 2 ^ c.zeN := by
  have h : phaseRes c p + 1 ≤ 2 ^ c.cbN := Nat.mod_lt _ (by positivity)
  have h2 : (phaseRes c p + 1) * 2 ^ c.zeN ≤ 2 ^ (c.cbN + c.zeN) := by
    rw [pow_add]; exact Nat.mul_le_mul_right _ h
  unfold residual Config.zf
  constructor
  · positivity
  · rw [Nat.add_mul] at h2; push_cast; zify at h2; linarith

/-- `ZF = 2 * HALF` (R9), because `CB + ZE >= 1`. -/
theorem zf_eq (h : 1 ≤ c.cbN + c.zeN) : c.zf = 2 * c.half := by
  obtain ⟨m, hm⟩ : ∃ m, c.cbN + c.zeN = m + 1 := ⟨_, (Nat.sub_add_cancel h).symm⟩
  unfold Config.zf Config.half
  rw [hm, pow_succ, Nat.add_sub_cancel]; push_cast; ring

/-- The accumulator a load writes is in `[-HALF, HALF]` (R134). -/
theorem startZ_abs (h : 1 ≤ c.cbN + c.zeN) (p : Nat) : |startZ c p| ≤ c.half := by
  have h1 := residual_range (c := c) p
  have h2 := zf_eq h
  have h3 : (0 : Int) < 2 ^ c.zeN := by positivity
  unfold startZ foldedResidual
  rw [abs_le]
  split <;> constructor <;> linarith

/-- The largest `|LUT[k]|` (R148) bounds every entry, and is the least number from 0 up that does. -/
theorem le_maxAbs_fold : ∀ (l : List SVal) (m b : Int),
    l.foldl (fun m e => max m (max e (-e))) m ≤ b ↔ m ≤ b ∧ ∀ e ∈ l, |e| ≤ b
  | [], m, b => by simp
  | a :: l, m, b => by
    rw [List.foldl_cons, le_maxAbs_fold l, List.forall_mem_cons]
    simp only [max_le_iff, abs_le', and_assoc]

theorem maxAbsLut_le_iff {b : Int} : maxAbsLut rom ≤ b ↔ 0 ≤ b ∧ ∀ e ∈ rom.lut, |e| ≤ b := le_maxAbs_fold rom.lut 0 b

/-- One iteration keeps the bound of R148 on the accumulator. -/
theorem rotate_abs_z {k : Nat} {r b : Int} {v : Vec} (hb : |v.z| ≤ b) :
    |(rotate k r v).z| ≤ 2 * max r (b - r) := by
  have h := abs_le.mp hb
  have h1 := le_max_left r (b - r)
  have h2 := le_max_right r (b - r)
  rw [abs_le]
  by_cases hz : v.z < 0
  · simp only [rotate, negative, hz, decide_true, if_true]; constructor <;> linarith
  · simp only [rotate, negative, hz, decide_false, Bool.false_eq_true, if_false]; constructor <;> linarith

/-- The radius after an iteration with shift `k`, from the radius before it. -/
def radiusStep (k : Nat) (r : Int) : Int := r + asr r (2 * k + 1) + 4

/-- The squared length after a rotation whose shifted components are off by less than one unit each. -/
theorem rotation_sq_le {d x y tx ty r q : Int} (hd : 2 ≤ d) (hr : 0 ≤ r) (hq : 0 ≤ q)
    (hx1 : d * tx ≤ x) (hx2 : x < d * tx + d) (hy1 : d * ty ≤ y) (hy2 : y < d * ty + d)
    (hq2 : r < 2 * d ^ 2 * q + 2 * d ^ 2) (h : x ^ 2 + y ^ 2 ≤ r ^ 2) :
    (x - ty) ^ 2 + (y + tx) ^ 2 ≤ (r + q + 4) ^ 2 ∧ (x + ty) ^ 2 + (y - tx) ^ 2 ≤ (r + q + 4) ^ 2 := by
  obtain ⟨a, ha⟩ : ∃ a, x - d * tx = a := ⟨_, rfl⟩
  obtain ⟨b, hb⟩ : ∃ b, y - d * ty = b := ⟨_, rfl⟩
  have ha0 : 0 ≤ a := by omega
  have hb0 : 0 ≤ b := by omega
  have had : a ≤ d := by omega
  have hbd : b ≤ d := by omega
  have hxr := abs_le.mp (abs_le_of_sq_le_sq (by linarith [sq_nonneg y] : x ^ 2 ≤ r ^ 2) hr)
  have hyr := abs_le.mp (abs_le_of_sq_le_sq (by linarith [sq_nonneg x] : y ^ 2 ≤ r ^ 2) hr)
  have hd0 : 0 ≤ d := by linarith
  have hm : 0 ≤ (d + 1) * r := mul_nonneg (by linarith) hr
  -- each cross term is at most `2 * d * (d + 1) * r`
  have cross : ∀ e f : Int, 0 ≤ e → e ≤ d → -((d + 1) * r) ≤ f → f ≤ (d + 1) * r →
      2 * e * f ≤ 2 * d * ((d + 1) * r) ∧ -(2 * e * f) ≤ 2 * d * ((d + 1) * r) := by
    intro e f h1 h2 h3 h4
    have k1 := mul_le_mul_of_nonneg_right h2 hm
    have k2 := mul_le_mul_of_nonneg_left h4 h1
    have k3 := mul_le_mul_of_nonneg_left h3 h1
    constructor <;> linarith
  have bound : ∀ u v : Int, -r ≤ u → u ≤ r → -r ≤ v → v ≤ r →
      -((d + 1) * r) ≤ d * u + v ∧ d * u + v ≤ (d + 1) * r := by
    intro u v h1 h2 h3 h4
    have k1 := mul_le_mul_of_nonneg_left h1 hd0
    have k2 := mul_le_mul_of_nonneg_left h2 hd0
    constructor <;> linarith
  have hsq : a ^ 2 + b ^ 2 ≤ 2 * d ^ 2 := by
    linarith [pow_le_pow_left₀ ha0 had 2, pow_le_pow_left₀ hb0 hbd 2]
  -- the new radius, scaled
  have hrhs : (d ^ 2 + 1) * r ^ 2 + 4 * d * ((d + 1) * r) + 2 * d ^ 2 ≤ d ^ 2 * (r + q + 4) ^ 2 := by
    have h1 : r * r ≤ r * (2 * d ^ 2 * q + 2 * d ^ 2) := mul_le_mul_of_nonneg_left hq2.le hr
    have h2 : 0 ≤ d ^ 2 * (q ^ 2 + 8 * q) := by positivity
    have h3 : 0 ≤ d * r * (d - 2) := mul_nonneg (mul_nonneg hd0 hr) (by linarith)
    linarith [sq_nonneg d]
  have hmul := mul_le_mul_of_nonneg_left h (by positivity : 0 ≤ d ^ 2 + 1)
  have hpos : 0 < d ^ 2 := by positivity
  constructor
  · refine le_of_mul_le_mul_left (le_trans ?_ hrhs) hpos
    have e : d ^ 2 * ((x - ty) ^ 2 + (y + tx) ^ 2) =
        (d ^ 2 + 1) * (x ^ 2 + y ^ 2) + 2 * b * (d * x + -y) - 2 * a * (d * y + x) + (a ^ 2 + b ^ 2) := by
      rw [← ha, ← hb]; ring
    have h1 := (cross b _ hb0 hbd (bound x (-y) (by linarith) (by linarith) (by linarith) (by linarith)).1
      (bound x (-y) (by linarith) (by linarith) (by linarith) (by linarith)).2).1
    have h2 := (cross a _ ha0 had (bound y x (by linarith) (by linarith) (by linarith) (by linarith)).1
      (bound y x (by linarith) (by linarith) (by linarith) (by linarith)).2).2
    linarith
  · refine le_of_mul_le_mul_left (le_trans ?_ hrhs) hpos
    have e : d ^ 2 * ((x + ty) ^ 2 + (y - tx) ^ 2) =
        (d ^ 2 + 1) * (x ^ 2 + y ^ 2) - 2 * b * (d * x + y) + 2 * a * (d * y + -x) + (a ^ 2 + b ^ 2) := by
      rw [← ha, ← hb]; ring
    have h1 := (cross b _ hb0 hbd (bound x y (by linarith) (by linarith) (by linarith) (by linarith)).1
      (bound x y (by linarith) (by linarith) (by linarith) (by linarith)).2).2
    have h2 := (cross a _ ha0 had (bound y (-x) (by linarith) (by linarith) (by linarith) (by linarith)).1
      (bound y (-x) (by linarith) (by linarith) (by linarith) (by linarith)).2).1
    linarith

/-- One iteration with a shift of at least 1 lengthens the vector by no more than `radiusStep`. -/
theorem rotate_sq_le {k : Nat} {r rot : Int} {v : Vec} (hk : 1 ≤ k) (hr : 0 ≤ r) (h : v.x ^ 2 + v.y ^ 2 ≤ r ^ 2) :
    (rotate k rot v).x ^ 2 + (rotate k rot v).y ^ 2 ≤ (radiusStep k r) ^ 2 := by
  have hd : (2 : Int) ≤ 2 ^ k := by
    calc (2 : Int) = 2 ^ 1 := by norm_num
      _ ≤ 2 ^ k := pow_le_pow_right₀ (by norm_num) hk
  have hq : 0 ≤ asr r (2 * k + 1) := by rw [asr_eq]; positivity
  have hq2 := (asr_bounds r (2 * k + 1)).2
  have hpow : (2 : Int) ^ (2 * k + 1) = 2 * (2 ^ k) ^ 2 := by rw [pow_succ, pow_mul']; ring
  rw [hpow] at hq2
  obtain ⟨hx1, hx2⟩ := asr_bounds v.x k
  obtain ⟨hy1, hy2⟩ := asr_bounds v.y k
  have key := rotation_sq_le hd hr hq hx1 hx2 hy1 hy2 hq2 h
  unfold rotate radiusStep
  split
  · exact key.2
  · exact key.1

/-- The radius before iteration `n`, from a radius for every starting vector. -/
def radius (rom : Rom) (r0 : Int) : Nat → Int
  | 0 => r0
  | n + 1 => radiusStep (rom.shift.getD n 0) (radius rom r0 n)

/-- A radius never falls below 0. -/
theorem radius_nonneg {r0 : Int} (h : 0 ≤ r0) : ∀ n, 0 ≤ radius rom r0 n
  | 0 => h
  | n + 1 => by
    have := radius_nonneg h n
    have h2 : 0 ≤ asr (radius rom r0 n) (2 * rom.shift.getD n 0 + 1) := by rw [asr_eq]; positivity
    unfold radius radiusStep; omega

/-- Every starting vector of the table is no longer than `r0`: entry and mirrored entry. -/
def startsWithin (rom : Rom) (r0 : Int) : Bool :=
  (rom.lut.zip rom.lut.reverse).all (fun e => decide (e.1 ^ 2 + e.2 ^ 2 ≤ r0 ^ 2))

/-- The tables' shape: what a load and an iteration need to find. -/
structure Shaped (c : Config) (rom : Rom) : Prop where
  rotLength : rom.rot.length = c.repsN
  rotPositive : ∀ r ∈ rom.rot, 1 ≤ r
  shifts : rom.shift = generateShift c
  lutLength : rom.lut.length = c.ts

/-- `index` is an address inside `LUT` (R57). -/
theorem phaseIndex_lt (p : Nat) : phaseIndex c p < c.ts := by
  unfold phaseIndex Config.ts; exact Nat.mod_lt _ (by positivity)

/-- The load finds its entries, and its vector is no longer than the starting radius. -/
theorem Shaped.loadVec_ok (h : Shaped c rom) {r0 : Int} (hs : startsWithin rom r0 = true) (p : Nat) :
    ∃ v, loadVec c rom p = .ok v ∧ v.x ^ 2 + v.y ^ 2 ≤ r0 ^ 2 ∧ v.z = startZ c p := by
  have hi : phaseIndex c p < rom.lut.length := by rw [h.lutLength]; exact phaseIndex_lt p
  have hm : mirrorIndex c p < rom.lut.length := by unfold mirrorIndex; rw [← h.lutLength]; omega
  have hrev : rom.lut.reverse[phaseIndex c p]'(by rwa [List.length_reverse]) = rom.lut[mirrorIndex c p] := by
    rw [List.getElem_reverse]; congr 1; unfold mirrorIndex; rw [h.lutLength]
  have hmem : (rom.lut[phaseIndex c p], rom.lut[mirrorIndex c p]) ∈ rom.lut.zip rom.lut.reverse := by
    rw [← hrev]
    refine List.mem_iff_getElem.mpr ⟨phaseIndex c p, by simpa using hi, by simp⟩
  have hle := of_decide_eq_true (List.all_eq_true.mp hs _ hmem)
  refine ⟨_, loadVec_ok_iff.mpr ⟨_, _, List.getElem?_eq_getElem hi, List.getElem?_eq_getElem hm, rfl⟩, ?_, rfl⟩
  dsimp only
  split
  · exact hle
  · rw [add_comm]; exact hle

/-- THE BOUNDS of every vector of an evaluation: its length by the radius, its accumulator by `B_n` (R148). -/
theorem Shaped.rotateN_bounds (h : Shaped c rom) (hib : 1 ≤ c.ibN) {r0 : Int} (hr0 : 0 ≤ r0) {v0 : Vec}
    (hxy : v0.x ^ 2 + v0.y ^ 2 ≤ r0 ^ 2) (hz : |v0.z| ≤ c.half) : ∀ n, n ≤ c.repsN →
    ∃ v, rotateN rom n v0 = .ok v ∧ v.x ^ 2 + v.y ^ 2 ≤ (radius rom r0 n) ^ 2 ∧ |v.z| ≤ boundZ c rom n
  | 0, _ => ⟨v0, rfl, hxy, hz⟩
  | n + 1, hn => by
    obtain ⟨v, hv, h1, h2⟩ := Shaped.rotateN_bounds h hib hr0 hxy hz n (by omega)
    have hrot : n < rom.rot.length := by rw [h.rotLength]; omega
    have hsh : rom.shift[n]? = some (c.ibN + n) := by
      rw [h.shifts]; simp [generateShift, shiftEntry, List.getElem?_range (show n < c.repsN by omega)]
    have hget : rom.rot.getD n 0 = rom.rot[n] := by simp [List.getD, hrot]
    have hget2 : rom.shift.getD n 0 = c.ibN + n := by simp [List.getD, hsh]
    refine ⟨rotate (c.ibN + n) rom.rot[n] v, ?_, ?_, ?_⟩
    · simp only [rotateN, hv]
      exact rotateAt_ok_iff.mpr ⟨_, _, hsh, List.getElem?_eq_getElem hrot, rfl⟩
    · rw [radius, hget2]
      exact rotate_sq_le (by omega) (radius_nonneg hr0 n) h1
    · rw [boundZ, hget]
      exact rotate_abs_z h2

/-- A component is no longer than the vector. -/
theorem abs_le_radius {a b r : Int} (hr : 0 ≤ r) (h : a ^ 2 + b ^ 2 ≤ r ^ 2) : |a| ≤ r :=
  abs_le_of_sq_le_sq (by linarith [sq_nonneg b]) hr

/-- An output of a value below `2^(W_OUT-1+OE)` in magnitude fits `W_OUT` bits, whether it is flipped or not (R138). -/
theorem outputOf_fits {m : Nat} (hw : c.wOut = m + 1) {a : Int} (h : |a| < 2 ^ (m + c.oeN)) (flip : Bool) :
    fits c.wOut (outputOf c flip a) = true := by
  have hp : (0 : Int) < 2 ^ c.oeN := by positivity
  have hb := abs_lt.mp h
  rw [pow_add] at hb
  have key : ∀ b : Int, -(2 ^ m * 2 ^ c.oeN) ≤ b → b < 2 ^ m * 2 ^ c.oeN → fits c.wOut (asr b c.oeN) = true := by
    intro b h1 h2
    rw [hw, fits_succ_iff, asr_eq]
    exact ⟨(Int.le_ediv_iff_mul_le hp).mpr (by linarith), (Int.ediv_lt_iff_lt_mul hp).mpr h2⟩
  unfold outputOf flipped
  split
  · exact key _ (by linarith) (by linarith)
  · exact key _ (by linarith) (by linarith)

/-- THE CHEAP TEST: what is to be looked at in the tables for check 9 of R201 to hold of every phase. -/
structure Bounded (c : Config) (rom : Rom) (r0 : Int) : Prop where
  nonneg : 0 ≤ r0
  starts : startsWithin rom r0 = true
  xy : ∀ n ≤ c.repsN, radius rom r0 n < 2 ^ (c.wXY - 1)
  z : ∀ n ≤ c.repsN, boundZ c rom n < 2 ^ (c.wZ - 1)
  out : radius rom r0 c.repsN < 2 ^ (c.wOut - 1 + c.oeN)
  bits : 1 ≤ c.wXY ∧ 1 ≤ c.wZ ∧ 1 ≤ c.wOut

/-- A vector within the radius and the accumulator bound fits its registers. -/
theorem Bounded.vec_fits {r0 : Int} (hb : Bounded c rom r0) {n : Nat} (hn : n ≤ c.repsN) {v : Vec}
    (h1 : v.x ^ 2 + v.y ^ 2 ≤ (radius rom r0 n) ^ 2) (h2 : |v.z| ≤ boundZ c rom n) : v.fits c = true := by
  obtain ⟨⟨a, ha⟩, ⟨b, hb'⟩⟩ : (∃ a, c.wXY = a + 1) ∧ (∃ b, c.wZ = b + 1) :=
    ⟨⟨_, (Nat.sub_add_cancel hb.bits.1).symm⟩, ⟨_, (Nat.sub_add_cancel hb.bits.2.1).symm⟩⟩
  have hr := radius_nonneg (rom := rom) hb.nonneg n
  have hxy := hb.xy n hn
  have hz := hb.z n hn
  rw [ha] at hxy
  rw [hb'] at hz
  rw [Vec.fits_iff, ha, hb']
  exact ⟨fits_of_abs_lt (abs_le_radius hr h1) hxy, fits_of_abs_lt (abs_le_radius hr (by rw [add_comm]; exact h1)) hxy,
    fits_of_abs_lt h2 hz⟩

/-- FINISH forms values that fit from the last vector. -/
theorem Bounded.finish_fits {r0 : Int} (hb : Bounded c rom r0) {v : Vec}
    (h1 : v.x ^ 2 + v.y ^ 2 ≤ (radius rom r0 c.repsN) ^ 2) (fc fs : Bool) : finishFits c fc fs v = true := by
  obtain ⟨⟨a, ha⟩, ⟨m, hm⟩⟩ : (∃ a, c.wXY = a + 1) ∧ (∃ m, c.wOut = m + 1) :=
    ⟨⟨_, (Nat.sub_add_cancel hb.bits.1).symm⟩, ⟨_, (Nat.sub_add_cancel hb.bits.2.2).symm⟩⟩
  have hr := radius_nonneg (rom := rom) hb.nonneg c.repsN
  have hx := abs_le_radius hr h1
  have hy := abs_le_radius (a := v.y) (b := v.x) hr (by rw [add_comm]; exact h1)
  have hxy := hb.xy c.repsN (le_refl _)
  have hout := hb.out
  rw [ha] at hxy
  rw [hm] at hout
  have neg : ∀ (f : Bool) (e : Int), |e| ≤ radius rom r0 c.repsN → negationFits c f e = true := by
    intro f e he
    unfold negationFits
    split
    · rw [ha]; exact fits_of_abs_lt (by rwa [abs_neg]) hxy
    · rfl
  exact finishFits_iff.mpr ⟨neg fc _ hx, neg fs _ hy, outputOf_fits hm (lt_of_le_of_lt hx hout) fc,
    outputOf_fits hm (lt_of_le_of_lt hy hout) fs⟩

/-- The remaining iterations of a run within the bounds fit (R201). -/
theorem Bounded.runFits (h : Shaped c rom) (hib : 1 ≤ c.ibN) {r0 : Int} (hb : Bounded c rom r0) {v0 : Vec}
    (hxy : v0.x ^ 2 + v0.y ^ 2 ≤ r0 ^ 2) (hz : |v0.z| ≤ c.half) (fc fs : Bool) : ∀ (m n : Nat) (v : Vec),
    n + m = c.repsN → rotateN rom n v0 = .ok v → Machine.runFits c rom fc fs m n v = true
  | 0, n, v, hn, hv => by
    obtain ⟨w, hw, h1, -⟩ := h.rotateN_bounds hib hb.nonneg hxy hz n (by omega)
    rw [hv] at hw; cases hw
    rw [Nat.add_zero] at hn
    exact hb.finish_fits (hn ▸ h1) fc fs
  | m + 1, n, v, hn, hv => by
    obtain ⟨w, hw, h1, h2⟩ := h.rotateN_bounds hib hb.nonneg hxy hz (n + 1) (by omega)
    have hw' : rotateAt rom n v = .ok w := by simpa only [rotateN, hv] using hw
    simp only [Machine.runFits, hw', Bool.and_eq_true]
    exact ⟨hb.vec_fits (by omega) h1 h2, Bounded.runFits h hib hb hxy hz fc fs m (n + 1) w (by omega) hw⟩

/-- CHECK 9 OF R201 from the cheap test and the widths of the tables themselves. -/
theorem Bounded.widthsFit (h : Shaped c rom) (hc : configError c = none) {r0 : Int} (hb : Bounded c rom r0)
    (hrot : ∀ r ∈ rom.rot, fits c.wZ r = true) (hlut : ∀ e ∈ rom.lut, fits c.wXY e = true)
    (hshift : ∀ k ∈ rom.shift, k < 2 ^ c.wS) (hi : c.repsN - 1 < 2 ^ c.wI) : Machine.widthsFit c rom = true := by
  obtain ⟨-, hib, hcz, -⟩ := configError_none hc
  refine widthsFit_iff.mpr ⟨hrot, hlut, hshift, hi, fun p _ => ?_⟩
  obtain ⟨v, hv, h1, h2⟩ := h.loadVec_ok hb.starts p
  have hz : |v.z| ≤ c.half := h2 ▸ startZ_abs hcz p
  simp only [phaseFits, hv, Bool.and_eq_true]
  exact ⟨hb.vec_fits (Nat.zero_le _) h1 hz, Bounded.runFits h hib hb h1 hz _ _ c.repsN 0 v (by omega) rfl⟩

end Sys2Proof.Machine
end

