-- ==== Sys2Proof/Laws/PerInstr.lean ====
section
/-! SUPPORT. One family of lemmas per constructor of `Instr`: the encoded word of a well-formed instruction is a decode word,
its fields are those of R75, and it lies on the instruction's own row of R76's table. -/

namespace Sys2Proof.Laws.EncodedWord

/-- The encoded word of a well-formed instruction is a decode word on the instruction's own row (R75, R76). -/
def Statement (i : Instr) : Prop :=
  ∀ (c : Config) (w : Nat), i.wellFormed c = true → encode c i = some w →
    w < 2 ^ (c.inb + 5) ∧ ∃ st cmd, w = packDW c st (packCmd c cmd) ∧ cmd.wellFormed c = true ∧ classify st cmd = i

/-- A packed word gives the family's statement for the instruction it classifies as. -/
theorem of_pack {i : Instr} {st : SeqCode} {cmd : Command} {c : Config} {w : Nat} (hw : packDW c st (packCmd c cmd) = w)
    (hc : cmd.wellFormed c = true) (hi : classify st cmd = i) :
    w < 2 ^ (c.inb + 5) ∧ ∃ st cmd, w = packDW c st (packCmd c cmd) ∧ cmd.wellFormed c = true ∧ classify st cmd = i :=
  ⟨hw ▸ packDW_lt c st cmd, st, cmd, hw.symm, hc, hi⟩

/-- The phase 0 is in range in every configuration. -/
theorem zero_wellFormed (c : Config) (r s t : Bool) : (Command.mk r s t 0).wellFormed c = true := by
  simp [Command.wellFormed, Config.fullCircle]

theorem reset : Statement .reset := fun c _ _ h =>
  of_pack (Option.some.inj h) (zero_wellFormed c ..) rfl

theorem nop : Statement .nop := fun c _ _ h =>
  of_pack (Option.some.inj h) (zero_wellFormed c ..) rfl

theorem sincos (phase : Nat) : Statement (.sincos phase) := fun c _ hw h =>
  of_pack (Option.some.inj h)
    (by simpa [Instr.wellFormed, Instr.phaseInRange, Instr.hasEncoding, Command.wellFormed] using hw) rfl

theorem sincosT (phase : Nat) : Statement (.sincosT phase) := fun c _ hw h =>
  of_pack (Option.some.inj h)
    (by simpa [Instr.wellFormed, Instr.phaseInRange, Instr.hasEncoding, Command.wellFormed] using hw) rfl

theorem iter : Statement .iter := fun c _ _ h =>
  of_pack (Option.some.inj h) (zero_wellFormed c ..) rfl

theorem finish : Statement .finish := fun c _ _ h =>
  of_pack (Option.some.inj h) (zero_wellFormed c ..) rfl

theorem rsvd : Statement .rsvd := fun c _ _ h =>
  of_pack (Option.some.inj h) (zero_wellFormed c ..) rfl

theorem generate : Statement .generate := fun _ _ hw _ => by simp [Instr.wellFormed, Instr.hasEncoding] at hw

theorem query : Statement .query := fun _ _ hw _ => by simp [Instr.wellFormed, Instr.hasEncoding] at hw

end Sys2Proof.Laws.EncodedWord
end

