-- ==== Sys2Proof/Laws/RefGeneration.lean ====
section
/-! SUPPORT. The two named configurations: GENERATE produces exactly the tables the spec lists (95_test_vectors.md section 1),
and both configurations are legal (R201). -/

set_option Elab.async false

namespace Sys2Proof.Machine

/-! ### What GENERATE produces, field by field (R100) -/

@[simp] theorem generateRom_rot {c : Config} : (generateRom c).rot = generateRot c := rfl

@[simp] theorem generateRom_shift {c : Config} : (generateRom c).shift = generateShift c := rfl

@[simp] theorem generateRom_lut {c : Config} : (generateRom c).lut = generateLut c := rfl

@[simp] theorem generateRom_diagUniform {c : Config} : (generateRom c).diagUniform = allIdentical (generateRot c) := rfl

/-! ### The named configurations -/

/-- REF's rotation angles are those the spec lists. -/
theorem generateRot_ref : generateRot Config.ref = refRot := by decide +kernel

/-- REF's 2048 lookup entries are those the spec lists. -/
theorem generateLut_ref : generateLut Config.ref = refLut := by decide +kernel

/-- GENERATE on REF produces the tables the spec lists, and `DIAG_UNIFORM = 0`. -/
theorem generateRom_ref : generateRom Config.ref = refRom := by
  have h : generateShift Config.ref = refShift := by decide
  simp only [generateRom, generateRot_ref, generateLut_ref, h, refRom, Rom.mk.injEq, true_and]
  decide +kernel

/-- The largest entry of REF's `LUT` (R148: `A_0`). -/
theorem maxAbsLut_ref : maxAbsLut refRom = 8388222 := by
  have h : ∀ e ∈ refRom.lut, |e| ≤ 8388222 := by
    have : refRom.lut.all (fun e => decide (-8388222 ≤ e) && decide (e ≤ 8388222)) = true := by decide +kernel
    simpa only [List.all_eq_true, Bool.and_eq_true, decide_eq_true_eq, abs_le] using this
  refine le_antisymm (maxAbsLut_le_iff.mpr ⟨by decide, h⟩) ?_
  have hm : refRom.lut[2047]? = some 8388222 := by decide +kernel
  exact le_trans (le_abs_self _) ((maxAbsLut_le_iff.mp le_rfl).2 _ (List.mem_of_getElem? hm))

/-- GENERATE on TINY produces the tables of R115. -/
theorem generateRom_tiny : generateRom Config.tiny = tinyRom := by decide +kernel

/-- What GENERATE produces has the shape the operations need, on any configuration (R51, R53, R54). -/
theorem shaped_generateRom (c : Config) : Shaped c (generateRom c) where
  rotLength := by simp [generateRom, generateRot]
  rotPositive := by
    intro r hr
    obtain ⟨i, -, rfl⟩ := List.mem_map.mp hr
    exact rotEntry_pos
  shifts := rfl
  lutLength := by simp [generateRom, generateLut]

/-- What GENERATE produces is legal when the checks of R201 pass. -/
theorem legal_generateRom {c : Config} (h1 : configError c = none) (h2 : widthsFit c (generateRom c) = true) :
    Legal c (generateRom c) where
  checks := h1
  rotLength := (shaped_generateRom c).rotLength
  rotPositive := (shaped_generateRom c).rotPositive
  shifts := rfl
  lutLength := (shaped_generateRom c).lutLength
  diagnostic := rfl
  widths := h2

/-- The lengths and accumulators of REF: no vector is longer than 8388352 at the load, or than 8388450 at the end. -/
theorem bounded_ref : Bounded Config.ref refRom 8388352 where
  nonneg := by decide
  starts := by decide +kernel
  xy := by decide +kernel
  z := by decide +kernel
  out := by decide +kernel
  bits := by decide

theorem bounded_tiny : Bounded Config.tiny tinyRom 382 where
  nonneg := by decide
  starts := by decide +kernel
  xy := by decide +kernel
  z := by decide +kernel
  out := by decide +kernel
  bits := by decide

/-- REF passes check 9 of R201 on all `2^32` phases. -/
theorem widthsFit_ref : widthsFit Config.ref refRom = true :=
  Bounded.widthsFit (generateRom_ref ▸ shaped_generateRom Config.ref) (by decide) bounded_ref (by decide +kernel)
    (by decide +kernel) (by decide +kernel) (by decide)

/-- TINY passes check 9 of R201 on all 256 phases. -/
theorem widthsFit_tiny : widthsFit Config.tiny tinyRom = true :=
  Bounded.widthsFit (generateRom_tiny ▸ shaped_generateRom Config.tiny) (by decide) bounded_tiny (by decide +kernel)
    (by decide +kernel) (by decide +kernel) (by decide)

/-- REF with its listed tables is legal. -/
theorem legal_ref : Legal Config.ref refRom := by
  have h := legal_generateRom (c := Config.ref) (by decide) (by rw [generateRom_ref]; exact widthsFit_ref)
  rwa [generateRom_ref] at h

/-- TINY with its listed tables is legal. -/
theorem legal_tiny : Legal Config.tiny tinyRom := by
  have h := legal_generateRom (c := Config.tiny) (by decide) (by rw [generateRom_tiny]; exact widthsFit_tiny)
  rwa [generateRom_tiny] at h

end Sys2Proof.Machine
end

