-- ==== Sys2Proof/Laws/Run.lean ====
section
/-! SUPPORT. Runs of several steps: the host's run taken from its last step, and the registers after the load and `k`
iterations of one evaluation. -/

namespace Sys2Proof.Machine

/-- The host's move `k` of a list; a host with no move left presents `rst = start = 0` for ever (R239; log 2). -/
def moveAt (ms : List HostMove) (k : Nat) : HostMove := ms.getD k (.cycle Command.idle)

/-- The result of a run: the machine that `k` steps reach, or why it stopped before (the host's `Core.run`). -/
abbrev runFor (k : Nat) (s : State) : Host.Outcome State Fault Refusal := Host.Core.run Sys2Proof.core k s

/-- One more step after an outcome. -/
def andThen (o : Host.Outcome State Fault Refusal) (f : State → Host.Outcome State Fault Refusal) :
    Host.Outcome State Fault Refusal :=
  match o with
  | .next t => f t
  | .fault f => .fault f
  | .refused r => .refused r

theorem runFor_zero (s : State) : runFor 0 s = .next s := rfl

/-- A run of `k + 1` steps is one step and a run of `k`. -/
theorem runFor_succ (k : Nat) (s : State) : runFor (k + 1) s = andThen (step s) (runFor k) := by
  have h : Sys2Proof.core.step s = step s := rfl
  cases hs : step s <;> rw [hs] at h <;> simp only [runFor, Host.Core.run, h, andThen] <;> rfl

theorem andThen_next (o : Host.Outcome State Fault Refusal) : andThen o .next = o := by cases o <;> rfl

theorem andThen_assoc (o : Host.Outcome State Fault Refusal) (f g : State → Host.Outcome State Fault Refusal) :
    andThen (andThen o f) g = andThen o (fun t => andThen (f t) g) := by cases o <;> rfl

/-- A run of `k + 1` steps is a run of `k` steps and one more. -/
theorem runFor_succ_last (k : Nat) (s : State) : runFor (k + 1) s = andThen (runFor k s) step := by
  induction k generalizing s with
  | zero => rw [runFor_succ, runFor_zero]; exact andThen_next (step s)
  | succ k ih =>
    rw [runFor_succ, runFor_succ, andThen_assoc]
    congr 1
    exact funext ih

/-- A run that reaches `t` and one more step from `t`. -/
theorem runFor_next {k : Nat} {s t : State} (h : runFor k s = .next t) : runFor (k + 1) s = step t := by
  rw [runFor_succ_last, h]; rfl

theorem nextMove_eq (s : State) : nextMove s = moveAt s.pending 0 := by
  unfold nextMove moveAt; split <;> simp_all

/-- The registers of the evaluation of phase `p` after the load and `k` iterations, with vector `v`; `r` are the registers
before the load (R142, R144). -/
def Regs.evaluating (r : Regs) (c : Config) (p : Nat) (trace : Bool) (k : Nat) (v : Vec) : Regs where
  st := some (if k = c.repsN then SeqCode.fin else SeqCode.run)
  i := some (if k = c.repsN then c.repsN - 1 else k)
  x := some v.x
  y := some v.y
  z := some v.z
  fc := some (flipCos c p)
  fs := some (flipSin c p)
  tr := some trace
  cosQ := r.cosQ
  sinQ := r.sinQ
  validQ := some false

/-- An iteration of an evaluation gives the registers of the evaluation one iteration on. -/
theorem Regs.evaluating_iterated {r : Regs} {c : Config} {p k : Nat} {tr : Bool} {v w : Vec} (hk : k < c.repsN) :
    (r.evaluating c p tr k v).iterated c k w = r.evaluating c p tr (k + 1) w := by
  have h : k ≠ c.repsN := by omega
  by_cases he : k + 1 = c.repsN
  · simp only [Regs.iterated, Regs.evaluating, he, if_true, if_neg h, Regs.mk.injEq, and_true, true_and]
    congr 1; omega
  · simp only [Regs.iterated, Regs.evaluating, he, if_false, if_neg h]

/-- A move of the rest of a list. -/
theorem moveAt_drop (ms : List HostMove) (k j : Nat) : moveAt (ms.drop k) j = moveAt ms (k + j) := by
  simp [moveAt, List.getD]

end Sys2Proof.Machine
end

