-- ==== Sys2Proof/Tests/Slice0.lean ====
section
/-! SUPPORT. The model's own tests, each on one step, with expected results from spec/95_test_vectors.md, and for every
statement with hypotheses a witness that meets them all. -/

set_option Elab.async false

namespace Sys2Proof.Tests

open Sys2Proof Sys2Proof.Machine

/-! ### Helpers -/

/-- The registers a step leaves, where it completes. -/
def regsAfter (o : Host.Outcome State Fault Refusal) : Option Regs :=
  match o with
  | .next t => some t.regs
  | .fault _ => none
  | .refused _ => none

/-- Why a step stops with a fault. -/
def faultOf (o : Host.Outcome State Fault Refusal) : Option Fault :=
  match o with
  | .next _ => none
  | .fault f => some f
  | .refused _ => none

theorem next_of_regs {o : Host.Outcome State Fault Refusal} {r : Regs} (h : regsAfter o = some r) :
    ∃ t, o = .next t ∧ t.regs = r := by
  cases o with
  | next t => exact ⟨t, rfl, Option.some.inj h⟩
  | fault f => cases h
  | refused f => cases h

/-- A built TINY core with these registers and moves of the host. -/
def tinyCore (r : Regs) (ms : List HostMove) : State := ⟨Config.tiny, some tinyRom, 0, none, r, ms⟩

/-- A built REF core with these registers and moves of the host. -/
def refCore (r : Regs) (ms : List HostMove) : State := ⟨Config.ref, some refRom, 0, none, r, ms⟩

/-- Registers in state RUN without trace, with no earlier result: `i`, the vector and the flips. -/
def runRegs (i : Nat) (x y z : Int) (fc fs : Bool) : Regs :=
  ⟨some 1#2, some i, some x, some y, some z, some fc, some fs, some false, some 0, some 0, some false⟩

/-- The same in state FIN. -/
def finRegs (i : Nat) (x y z : Int) (fc fs : Bool) : Regs := { runRegs i x y z fc fs with st := some 2#2 }

/-- The same in the reserved state. -/
def rsvdRegs : Regs := { Regs.reset with st := some 3#2 }

/-- In the cycle where `done = 1`, after the evaluation of TINY's phase 0. -/
def doneRegs : Regs := { finRegs 3 396 (-8) 60 false false with st := some 0#2, cosQ := some 99, sinQ := some (-2), validQ := some true }

/-- A cycle without reset. -/
def cyc (start traceEn : Bool) (phase : Nat) : HostMove := .cycle ⟨false, start, traceEn, phase⟩

/-! ### Well-formedness: each check refuses an ill-formed term -/

theorem test_sincos_phase_out_of_range : (Instr.sincos 256).wellFormed Config.tiny = false := by decide

theorem test_sincosT_phase_out_of_range : (Instr.sincosT 4294967296).wellFormed Config.ref = false := by decide

theorem test_largest_phase_is_well_formed :
    (Instr.sincos 255).wellFormed Config.tiny = true ∧ (Instr.sincosT 4294967295).wellFormed Config.ref = true := by decide

theorem test_static_operations_have_no_encoding :
    Instr.generate.wellFormed Config.ref = false ∧ Instr.query.wellFormed Config.ref = false ∧
    encode Config.ref .generate = none ∧ encode Config.ref .query = none := by decide

theorem test_command_phase_out_of_range : (Command.mk false true false 256).wellFormed Config.tiny = false := by decide

/-! ### Decoding: words written out from R74 to R76 (TINY: `st` at bits 12:11, `rst` 10, `start` 9, `trace_en` 8, phase 7:0) -/

theorem test_decode_reset : decode Config.tiny 0b00_1_0_0_00000000 = .ok .reset := by decide +kernel

theorem test_decode_nop : decode Config.tiny 0b00_0_0_0_00000000 = .ok .nop := by decide +kernel

theorem test_decode_sincos : decode Config.tiny 0b00_0_1_0_00010000 = .ok (.sincos 16) := by decide +kernel

theorem test_decode_sincosT : decode Config.tiny 0b00_0_1_1_01100100 = .ok (.sincosT 100) := by decide +kernel

theorem test_decode_iter : decode Config.tiny 0b01_0_1_0_11001000 = .ok .iter := by decide +kernel

theorem test_decode_finish : decode Config.tiny 0b10_0_1_0_01100011 = .ok .finish := by decide +kernel

theorem test_decode_rsvd : decode Config.tiny 0b11_0_0_0_00000000 = .ok .rsvd := by decide +kernel

/-- R75: the first matching line wins, so `rst = 1` is RESET in every state. -/
theorem test_decode_reset_first : decode Config.tiny 0b11_1_1_1_11111111 = .ok .reset := by decide +kernel

theorem test_decode_ref_sincos : decodeTableWord 40 0x0240000000 = some (.sincos 1073741824) := by decide +kernel

/-! ### GENERATE (95_test_vectors.md section 4.1) and QUERY (4.2) -/

theorem test_generate_reports_reps_first :
    faultOf (exec .generate (State.unbuilt (Config.ofParams 0 19 0 32767 8 4))) = some (.cfgError .cfgReps) := by
  decide +kernel

theorem test_generate_tiny_too_narrow_output :
    faultOf (exec .generate (State.unbuilt { Config.tiny with wOut := 7 })) = some (.cfgError .cfgWidth) := by
  decide +kernel

/-- R115's worked generation, to the ten decimals it is printed with. -/
theorem test_generate_tiny_worked_values :
    [gainUpTo Config.tiny .nearest 4, tableMagnitude Config.tiny .nearest, rotValue Config.tiny .nearest 0,
     lutValue Config.tiny (tableMagnitude Config.tiny .nearest) .nearest 3, atan64 .nearest (halfTableAngle Config.tiny)].map
      (fun a => toNearestInt (a * 10 ^ 10)) = [9603074673, 3841229869163, 399253147532, 3767421714320, 1938830516] := by
  decide +kernel

theorem test_query_ref : queryAnswer Config.ref = ⟨32767, 4294967296, 32⟩ := by decide

/-! ### The load (95_test_vectors.md section 4.3) -/

theorem test_sincos_fold_of_residual_zero :
    regsAfter (exec (.sincos 64) (tinyCore Regs.reset [])) = some (runRegs 0 72 374 32 true false) := by decide +kernel

theorem test_sincos_keeps_the_last_result :
    regsAfter (step (tinyCore doneRegs [cyc true false 255])) =
      some { runRegs 0 374 72 (-28) false true with cosQ := some 99, sinQ := some (-2) } := by decide +kernel

theorem test_sincosT_sets_the_trace_latch :
    regsAfter (step (tinyCore Regs.reset [cyc true true 100])) =
      some { runRegs 0 317 211 16 true false with tr := some true } := by decide +kernel

theorem test_sincosT_ref :
    regsAfter (exec (.sincosT 1073741824) (refCore Regs.reset [])) =
      some { runRegs 0 3088 8388222 4194304 true false with tr := some true } := by decide +kernel

/-! ### ITER (95_test_vectors.md section 4.4) -/

theorem test_iter_floor_shift_of_negatives :
    regsAfter (exec .iter (tinyCore (runRegs 0 (-5) 6 5 false false) [])) =
      some (runRegs 1 (-6) 4 (-72) false false) := by decide +kernel

theorem test_iter_last_keeps_i :
    regsAfter (step (tinyCore (runRegs 3 396 4 (-12) false false) [cyc true true 7])) =
      some (finRegs 3 396 (-8) 60 false false) := by decide +kernel

/-! ### FINISH (95_test_vectors.md section 4.5) -/

theorem test_finish_negates_then_shifts :
    regsAfter (step (tinyCore (finRegs 3 310 248 20 true false) [])) =
      some { finRegs 3 310 248 20 true false with
        st := some 0#2, cosQ := some (-78), sinQ := some 62, validQ := some true } := by decide +kernel

theorem test_finish_floor_shift :
    regsAfter (exec .finish (tinyCore (finRegs 3 (-5) 5 0 false true) [])) =
      some { finRegs 3 (-5) 5 0 false true with
        st := some 0#2, cosQ := some (-2), sinQ := some (-2), validQ := some true } := by decide +kernel

/-! ### NOP, RESET, RSVD and power-up (95_test_vectors.md section 4.6) -/

theorem test_nop_ignores_trace_and_phase :
    regsAfter (step (tinyCore doneRegs [cyc false true 77])) = some { doneRegs with validQ := some false } := by
  decide +kernel

theorem test_reset_abandons_a_computation :
    regsAfter (step (tinyCore { runRegs 2 395 28 (-48) false false with cosQ := some 92 } [.cycle ⟨true, true, false, 0⟩])) =
      some Regs.reset := by decide +kernel

theorem test_reset_leaves_the_reserved_state :
    regsAfter (step (tinyCore rsvdRegs [.cycle ⟨true, false, false, 0⟩])) = some Regs.reset := by decide +kernel

theorem test_rsvd_faults : faultOf (step (tinyCore rsvdRegs [cyc true false 5])) = some .rsvdState := by decide +kernel

theorem test_power_up_reads_no_value : faultOf (step (State.powerUp Config.tiny tinyRom)) = some .undefRead := by
  decide +kernel

theorem test_power_up_resets :
    regsAfter (step ((State.powerUp Config.tiny tinyRom).withPending [.cycle ⟨true, false, false, 0⟩])) =
      some Regs.reset := by decide +kernel

/-! ### The host's two names -/

theorem test_with_fetch_word_runs_the_word :
    regsAfter (step (State.reset.withFetchWord 40 0x0200000000)) =
      some (runRegs 0 8388222 3088 (-4194304) false false) := by decide +kernel

theorem test_with_fetch_word_of_a_busy_state :
    (selectInstr (State.reset.withFetchWord 40 0x0800000000) matches .next .iter) = true ∧
    (selectInstr (State.reset.withFetchWord 40 0x1000000000) matches .next .finish) = true := by decide +kernel

/-! ### The assembler (30_encoding.md rules R80, R81) -/

theorem test_parse_line :
    parseLine "SINCOS.T 0x64 ; traced".toList = some (.sincosT 100) ∧ parseLine "; nothing".toList = some .blank ∧
    parseLine "ITER".toList = none ∧ parseLine "WAIT 5".toList = some (.wait 5) := by decide +kernel

/-! ### Witnesses: for every statement with hypotheses, a state and operands that meet them all -/

/-- TINY in state IDLE, with these moves. -/
def idleCore (ms : List HostMove) : State := tinyCore Regs.reset ms

/-- The first iteration of TINY's phase 0. -/
def runCore (ms : List HostMove) : State := tinyCore (runRegs 0 374 72 (-32) false false) ms

/-- The FIN cycle of TINY's phase 0. -/
def finCore (ms : List HostMove) : State := tinyCore (finRegs 3 396 (-8) 60 false false) ms

/-- A completed step, from the registers it leaves. -/
theorem completes {o : Host.Outcome State Fault Refusal} (h : (regsAfter o).isSome = true) : ∃ t, o = .next t := by
  cases o with
  | next t => exact ⟨t, rfl⟩
  | fault f => cases h
  | refused f => cases h

theorem witness_ResetWritesResetValues : ∃ (s : State) (rom : Rom) (cmd : Command),
    s.rom = some rom ∧ nextMove s = .cycle cmd ∧ cmd.rst = true :=
  ⟨tinyCore rsvdRegs [.cycle ⟨true, true, true, 255⟩], _, _, rfl, rfl, rfl⟩

theorem witness_PowerUpHoldsNoValue : ∃ cmd : Command, cmd.rst = false := ⟨Command.idle, rfl⟩

theorem generate_completes {s : State} (h1 : configError s.cfg = none) (h2 : widthsFit s.cfg (generateRom s.cfg) = true) :
    ∃ t, exec .generate s = .next t := ⟨_, execGenerate_next_iff.mpr ⟨h1, h2, rfl⟩⟩

theorem generate_tiny_fits {s : State} (h : s.cfg = Config.tiny) :
    configError s.cfg = none ∧ widthsFit s.cfg (generateRom s.cfg) = true := by
  rw [h, generateRom_tiny]
  exact ⟨by decide, widthsFit_tiny⟩

theorem generate_tiny_completes : ∃ t, exec .generate (State.unbuilt Config.tiny) = .next t :=
  have h := generate_tiny_fits (s := State.unbuilt Config.tiny) rfl
  generate_completes h.1 h.2

theorem witness_GenerationComesFirst : ∃ s t : State, s.rom = none ∧ step s = .next t := by
  obtain ⟨t, h⟩ := generate_tiny_completes
  exact ⟨_, t, rfl, (step_unbuilt rfl).trans h⟩

theorem witness_TablesNeverChange : ∃ (s t u : State) (rom : Rom) (i : Instr),
    s.rom = some rom ∧ step s = .next t ∧ i ≠ .generate ∧ exec i s = .next u :=
  ⟨idleCore [], _, _, _, .reset, rfl, rfl, by decide, rfl⟩

/-- SINCOS.T in state IDLE changes `st`, the vector, the flips and `tr`. -/
theorem witness_RegistersAreWrittenByTheirRowOnly_load :
    ((regsAfter (exec (.sincosT 128) (idleCore []))).any (fun r =>
      r.st ≠ Regs.reset.st ∧ r.x ≠ Regs.reset.x ∧ r.fc ≠ Regs.reset.fc ∧ r.fs ≠ Regs.reset.fs ∧ r.tr ≠ Regs.reset.tr)) =
      true := by decide +kernel

/-- ITER changes `i`, FINISH the result and `valid_q`. -/
theorem witness_RegistersAreWrittenByTheirRowOnly_run :
    ((regsAfter (exec .iter (runCore []))).any (fun r => r.i ≠ some 0)) = true ∧
    ((regsAfter (exec .finish (finCore []))).any (fun r =>
      r.cosQ ≠ some 0 ∧ r.sinQ ≠ some 0 ∧ r.validQ ≠ some false)) = true := by decide +kernel

theorem witness_ResultsHoldUntilTheNextFinish : ∃ (s t : State) (rom : Rom) (cmd : Command) (st : SeqCode),
    InCycle s rom cmd st ∧ step s = .next t ∧ cmd.rst = false ∧ st ≠ 2#2 :=
  ⟨idleCore [], _, _, _, _, ⟨rfl, rfl, rfl⟩, rfl, rfl, by decide⟩

theorem witness_ConfigurationNeverChanges : ∃ s t u : State, exec .nop s = .next u ∧ step s = .next t :=
  ⟨idleCore [], _, _, rfl, rfl⟩

/-- The largest phase and the largest command word. -/
theorem witness_CommandWordPacksTheInputs :
    (Command.mk true true true 255).wellFormed Config.tiny = true ∧ 2047 < 2 ^ (Config.tiny.inb + 3) := by decide

/-- A word for each line of R75's table, at both ends of the lines' ranges. -/
theorem witness_DecodeFollowsTheTable :
    ([0x0400, 0x1FFF, 0x0000, 0x01FF, 0x0200, 0x02FF, 0x0300, 0x03FF, 0x0800, 0x0BFF, 0x1000, 0x13FF, 0x1800, 0x1BFF].map
      (fun w => (decide (w < 2 ^ (Config.tiny.inb + 5)), w / 2 ^ (Config.tiny.inb + 3), w.testBit (Config.tiny.inb + 2),
        w.testBit (Config.tiny.inb + 1), w.testBit Config.tiny.inb))) =
    [(true, 0, true, false, false), (true, 3, true, true, true), (true, 0, false, false, false), (true, 0, false, false, true),
     (true, 0, false, true, false), (true, 0, false, true, false), (true, 0, false, true, true), (true, 0, false, true, true),
     (true, 1, false, false, false), (true, 1, false, true, true), (true, 2, false, false, false), (true, 2, false, true, true),
     (true, 3, false, false, false), (true, 3, false, true, true)] := by decide +kernel

theorem witness_MaskAndMatchSelectTheRow :
    8191 < 2 ^ (Config.tiny.inb + 5) ∧ opMask Config.tiny .reset = some 0x0400 ∧ opMatch Config.tiny .reset = some 0x0400 ∧
    8191 &&& 0x0400 = 0x0400 := by decide

theorem witness_DecodeOfEncodeIsTheInstruction :
    (Instr.sincos 255).wellFormed Config.tiny = true ∧ (Instr.sincosT 0).wellFormed Config.tiny = true ∧
    Instr.rsvd.wellFormed Config.tiny = true := by decide

theorem witness_StepRunsTheDecodedInstruction : ∃ (s : State) (rom : Rom) (cmd : Command) (st : SeqCode) (i : Instr),
    InCycle s rom cmd st ∧ decode s.cfg (packDW s.cfg st (packCmd s.cfg cmd)) = .ok i :=
  ⟨idleCore [cyc true true 255], _, _, _, .sincosT 255, ⟨rfl, rfl, rfl⟩, by decide +kernel⟩

theorem witness_StepRunsTheQuery : ∃ (s : State) (rom : Rom), s.rom = some rom ∧ nextMove s = .query :=
  ⟨idleCore [.query], _, rfl, rfl⟩

/-- In state RUN, and in state IDLE, where the two commands have `start = 0`. -/
theorem witness_UnreadInputsAreIgnored :
    ((runCore []).rom = some tinyRom ∧ (runCore []).regs.st = some 1#2 ∧ (1#2 = 0#2 → true = false ∧ false = false)) ∧
    ((idleCore []).rom = some tinyRom ∧ (idleCore []).regs.st = some 0#2 ∧ (0#2 = 0#2 → false = false ∧ false = false)) :=
  ⟨⟨rfl, rfl, by decide⟩, ⟨rfl, rfl, by decide⟩⟩

theorem witness_PhaseIsTakenModuloTheCircle : 255 < 2 ^ Config.tiny.inb := by decide

/-- The largest phases, and a configuration with `CB = 0`. -/
theorem witness_PhaseFieldsPartitionThePhase :
    255 < 2 ^ Config.tiny.inb ∧ (Config.ofParams 2 0 4 100 2 2).cbN = 0 ∧ 15 < 2 ^ (Config.ofParams 2 0 4 100 2 2).inb ∧
    (4294967295 : Nat) < 2 ^ 32 := by decide

/-- The last phase of each quadrant. -/
theorem witness_FlipsFollowTheQuadrant :
    [63, 127, 191, 255].map (fun p => (decide (p < 2 ^ Config.tiny.inb), p / 2 ^ (Config.tiny.inb - 2))) =
      [(true, 0), (true, 1), (true, 2), (true, 3)] := by decide

/-- Phases with `q0 = 1`, residual 0 and not, and with `q0 = 0`. -/
theorem witness_ResidualIsFoldedAndCentred :
    configError Config.tiny = none ∧ phaseQ0 Config.tiny 64 = true ∧ phaseRes Config.tiny 64 = 0 ∧
    phaseQ0 Config.tiny 79 = true ∧ phaseQ0 Config.tiny 15 = false := by decide

/-- The last iteration number in range, and the first outside. -/
theorem witness_AddressesAreInRange :
    (idleCore []).rom = some tinyRom ∧ Legal (idleCore []).cfg tinyRom ∧ 3 < Config.tiny.repsN ∧
    HoldsVec (tinyCore (runRegs 4 396 4 (-12) false false) []).regs 4 ⟨396, 4, -12⟩ ∧ Config.tiny.repsN ≤ 4 :=
  ⟨rfl, legal_tiny, by decide, ⟨rfl, rfl, rfl, rfl⟩, by decide⟩

/-- A command of SINCOS, and the two table entries of the last phase. -/
theorem witness_SincosWritesTheLoad :
    InCycle (idleCore [cyc true false 255]) tinyRom ⟨false, true, false, 255⟩ 0#2 ∧
    3 = phaseIndex Config.tiny (255 % 2 ^ Config.tiny.inb) ∧ 0 = Config.tiny.ts - 1 - 3 ∧
    tinyRom.lut[3]? = some 374 ∧ tinyRom.lut[0]? = some 72 :=
  ⟨⟨rfl, rfl, rfl⟩, by decide, by decide, rfl, rfl⟩

theorem witness_SincosCompletesOnALegalCore : (idleCore []).rom = some tinyRom ∧ Legal (idleCore []).cfg tinyRom :=
  ⟨rfl, legal_tiny⟩

/-- A command of SINCOS.T; SINCOS completes there; on tables that are too short it faults. -/
theorem witness_SincosTDiffersOnlyInTheTraceLatch :
    InCycle (idleCore [cyc true true 255]) tinyRom ⟨false, true, true, 255⟩ 0#2 ∧
    (∃ t, exec (.sincos 255) (idleCore []) = .next t) ∧
    exec (.sincos 255) (State.unbuilt Config.tiny) = .fault .addr :=
  ⟨⟨rfl, rfl, rfl⟩, completes (by decide +kernel), rfl⟩

theorem witness_SincosTCompletesOnALegalCore : Regs.reset = (refCore Regs.reset []).regs ∧
    (refCore Regs.reset []).rom = some refRom ∧ Legal (refCore Regs.reset []).cfg refRom := ⟨rfl, rfl, legal_ref⟩

/-- The first and the last iteration; `z < 0`, `z = 0` and `z > 0`. -/
theorem witness_RotationIsThePseudocode :
    (tinyRom.shift[0]? = some 2 ∧ tinyRom.rot[0]? = some 41 ∧ tinyRom.shift[3]? = some 5 ∧ tinyRom.rot[3]? = some 42) ∧
    ((-1 : Int) < 0 ∧ (0 : Int) ≤ 0 ∧ (0 : Int) ≤ 1) := by decide

/-- The first iteration and the last. -/
theorem witness_IterWritesTheRotation :
    InCycle (runCore []) tinyRom Command.idle 1#2 ∧ (runCore []).rom = some tinyRom ∧ 1 ≤ (runCore []).cfg.repsN ∧
    HoldsVec (runCore []).regs 0 ⟨374, 72, -32⟩ ∧ tinyRom.shift[0]? = some 2 ∧ tinyRom.rot[0]? = some 41 ∧
    HoldsVec (tinyCore (runRegs 3 396 4 (-12) false false) []).regs 3 ⟨396, 4, -12⟩ ∧ tinyRom.shift[3]? = some 5 ∧
    tinyRom.rot[3]? = some 42 :=
  ⟨⟨rfl, rfl, rfl⟩, rfl, by decide, ⟨rfl, rfl, rfl, rfl⟩, rfl, rfl, ⟨rfl, rfl, rfl, rfl⟩, rfl, rfl⟩

/-- The first iteration (`i + 1 < REPS`) and the last (`i + 1 = REPS`). -/
theorem witness_IterCompletesInAnEvaluation :
    (runCore []).rom = some tinyRom ∧ Legal (runCore []).cfg tinyRom ∧ (runCore []).regs.i = some 0 ∧
    vecAt Config.tiny tinyRom 0 0 = .ok ⟨374, 72, -32⟩ ∧
    HoldsEvaluation Config.tiny (runCore []).regs 0 ⟨374, 72, -32⟩ ∧ 0 + 1 < Config.tiny.repsN ∧
    vecAt Config.tiny tinyRom 0 3 = .ok ⟨396, 4, -12⟩ ∧
    HoldsEvaluation Config.tiny (tinyCore (runRegs 3 396 4 (-12) false false) []).regs 0 ⟨396, 4, -12⟩ ∧
    3 + 1 = Config.tiny.repsN :=
  ⟨rfl, legal_tiny, rfl, by decide +kernel, ⟨rfl, rfl, rfl, by decide, by decide⟩, by decide, by decide +kernel,
    ⟨rfl, rfl, rfl, by decide, by decide⟩, by decide⟩

/-- The vector FINISH reads of phase 0, and a coordinate that is not a multiple of `2^OE`. -/
theorem witness_OutputNegatesThenShifts :
    vecAt Config.tiny tinyRom 0 Config.tiny.repsN = .ok ⟨396, -8, 60⟩ ∧ ¬ (2 : Int) ^ Config.tiny.oeN ∣ 5 := by
  decide +kernel

theorem witness_FinishWritesTheResult :
    InCycle (finCore []) tinyRom Command.idle 2#2 ∧ (finCore []).regs.x = some 396 ∧ (finCore []).regs.y = some (-8) ∧
    (finCore []).regs.fc = some false ∧ (finCore []).regs.fs = some false := ⟨⟨rfl, rfl, rfl⟩, rfl, rfl, rfl, rfl⟩

theorem witness_FinishCompletesAfterAnEvaluation :
    Legal (finCore []).cfg tinyRom ∧ vecAt Config.tiny tinyRom 0 Config.tiny.repsN = .ok ⟨396, -8, 60⟩ ∧
    HoldsEvaluation Config.tiny (finCore []).regs 0 ⟨396, -8, 60⟩ :=
  ⟨legal_tiny, by decide +kernel, ⟨rfl, rfl, rfl, by decide, by decide⟩⟩

theorem witness_NopOnlyClearsValid : InCycle (tinyCore doneRegs [cyc false true 77]) tinyRom ⟨false, false, true, 77⟩ 0#2 :=
  ⟨rfl, rfl, rfl⟩

/-- The reserved state with `rst = 0` and with `rst = 1`, and a completed step from another state. -/
theorem witness_ReservedCodeFaultsAndIsUnreachable :
    InCycle (tinyCore rsvdRegs []) tinyRom Command.idle 3#2 ∧
    InCycle (tinyCore rsvdRegs [.cycle ⟨true, false, false, 0⟩]) tinyRom ⟨true, false, false, 0⟩ 3#2 ∧
    (idleCore []).regs.st ≠ some 3#2 ∧ ∃ t, step (idleCore []) = .next t :=
  ⟨⟨rfl, rfl, rfl⟩, ⟨rfl, rfl, rfl⟩, by decide, ⟨_, rfl⟩⟩

/-- A register without a value; an iteration number at the end of the tables; a table one entry short of the last address; a
reset. -/
theorem witness_FaultsAreReportedInOrder :
    (idleCore []).regs.x = none ∧
    (HoldsVec (tinyCore (runRegs 4 396 4 (-12) false false) []).regs 4 ⟨396, 4, -12⟩ ∧ tinyRom.shift.length ≤ 4) ∧
    (List.length [72, 211, 317] ≤ phaseIndex Config.tiny (portPhase Config.tiny 63)) ∧
    nextMove (idleCore [.cycle ⟨true, false, false, 0⟩]) = .cycle ⟨true, false, false, 0⟩ :=
  ⟨rfl, ⟨⟨rfl, rfl, rfl, rfl⟩, by decide⟩, by decide, rfl⟩

theorem witness_LoadFrame :
    (∃ t, exec (.sincos 255) (idleCore []) = .next t) ∧ ∃ t, exec (.sincosT 255) (idleCore []) = .next t :=
  ⟨completes (by decide +kernel), completes (by decide +kernel)⟩

theorem witness_IterFrame : ∃ t, exec .iter (runCore []) = .next t := completes (by decide +kernel)

theorem witness_FinishFrame : ∃ t, exec .finish (finCore []) = .next t := completes (by decide +kernel)

theorem witness_ElaborationFrame :
    (∃ t, exec .generate (State.unbuilt Config.tiny) = .next t) ∧ ∃ t, exec .query (idleCore []) = .next t :=
  ⟨generate_tiny_completes, ⟨_, rfl⟩⟩

/-- A configuration that passes every check; of its `ROT` and its `LUT` the first and the last entry. -/
theorem witness_GenerateBuildsTheTables :
    (configError (State.unbuilt Config.tiny).cfg = none ∧
      widthsFit (State.unbuilt Config.tiny).cfg (generateRom (State.unbuilt Config.tiny).cfg) = true) ∧
    (generateRom Config.tiny).rot[3]? = some 42 ∧ (generateRom Config.tiny).rot[0]? = some 41 ∧
    ([0, 3].map fun i => (decide (iterTangent Config.tiny i ≠ 0), decide (rotValue Config.tiny .high i < inf64),
      decide (toNearestInt (rotValue Config.tiny .nearest i) < 2 ^ 53), decide (Config.tiny.ibN + i ≤ 1019))) =
      [(true, true, true, true), (true, true, true, true)] ∧
    Config.tiny.ibN ≤ 30 ∧ rotBound Config.tiny < inf64 ∧
    ([0, 3].map fun k => (decide (lutValue Config.tiny (tableMagnitude Config.tiny .high) .high k < inf64),
      decide (toFloorInt (lutValue Config.tiny (tableMagnitude Config.tiny .nearest) .nearest k) < 2 ^ 53))) =
      [(true, true), (true, true)] :=
  ⟨generate_tiny_fits rfl, by rw [generateRom_tiny]; rfl, by rw [generateRom_tiny]; rfl, by decide +kernel, by decide,
    by decide +kernel, by decide +kernel⟩

/-- Each check failing first, at the boundary of its range (95_test_vectors.md section 4.1), and none but check 9. -/
theorem witness_GenerateReportsTheFirstFailingCheck :
    [Config.ofParams 0 19 0 32767 8 4, Config.ofParams 0 19 24 32767 8 4, Config.ofParams 2 (-1) 4 100 2 2,
     Config.ofParams 2 4 4 100 2 (-1), Config.ofParams 2 0 4 100 2 0, Config.ofParams 2 4 4 100 0 2,
     Config.ofParams 2 4 4 0 2 2, Config.ofParams 1 0 1 1 1 1].map configError =
    [some .cfgReps, some .cfgIndex, some .cfgCordic, some .cfgZe, some .cfgCz, some .cfgOe, some .cfgScale, none] ∧
    widthsFit { Config.tiny with wOut := 7 } (generateRom { Config.tiny with wOut := 7 }) = false := by decide +kernel

theorem witness_NamedConfigurationsGenerateTheirTables :
    (State.unbuilt Config.ref).cfg = Config.ref ∧ (State.unbuilt Config.tiny).cfg = Config.tiny := ⟨rfl, rfl⟩

/-- The smallest and the largest `IB`. -/
theorem witness_StartShiftIsMinusIndexBits :
    (0 ≤ (Config.ofParams 0 4 4 100 2 2).ib ∧ (Config.ofParams 0 4 4 100 2 2).ib ≤ 30) ∧
    (0 ≤ (Config.ofParams 30 4 4 100 2 2).ib ∧ (Config.ofParams 30 4 4 100 2 2).ib ≤ 30) := by decide

/-- A traced iteration, and state RUN without trace. -/
theorem witness_BusyAndTracePort :
    ({ runRegs 0 317 211 16 true false with tr := some true } : Regs).st = some 1#2 ∧
    ({ runRegs 0 317 211 16 true false with tr := some true } : Regs).tr = some true ∧
    (runRegs 0 317 211 16 true false).st = some 1#2 ∧ (runRegs 0 317 211 16 true false).tr = some false :=
  ⟨rfl, rfl, rfl, rfl⟩

theorem witness_DoneFollowsFinishOnly :
    InCycle (finCore []) tinyRom Command.idle 2#2 ∧ ∃ t, step (finCore []) = .next t :=
  ⟨⟨rfl, rfl, rfl⟩, completes (by decide +kernel)⟩

/-- TINY at power-up, where no register holds a value. -/
theorem witness_InvariantAtReset : (State.powerUp Config.tiny tinyRom).rom = some tinyRom ∧
    Legal (State.powerUp Config.tiny tinyRom).cfg tinyRom := ⟨rfl, legal_tiny⟩

theorem witness_StepKeepsTheInvariant : Inv State.reset ∧ ∃ t, step State.reset = .next t :=
  ⟨⟨refRom, rfl, legal_ref, legal_ref.regsOk_reset⟩, ⟨_, rfl⟩⟩

theorem witness_NoStepFaultsFromTheInvariant : Inv State.reset := ⟨refRom, rfl, legal_ref, legal_ref.regsOk_reset⟩

theorem witness_StepKeepsTheWidths : 1 ≤ (idleCore []).cfg.wOut ∧ WidthsHold (idleCore []) ∧
    ∃ t, step (idleCore []) = .next t :=
  ⟨by decide, ⟨by decide, holdsFitting_none, holdsFitting_none, holdsFitting_none, holdsFitting_some (by decide),
    holdsFitting_some (by decide)⟩, ⟨_, rfl⟩⟩

/-- An accepted command followed by no move at all, which is a host that presents nothing for ever. -/
theorem witness_EvaluationComputesSinCos :
    (idleCore [cyc true false 255]).rom = some tinyRom ∧ Legal (idleCore [cyc true false 255]).cfg tinyRom ∧
    (idleCore [cyc true false 255]).regs.st = some 0#2 ∧
    (idleCore [cyc true false 255]).pending = [.cycle ⟨false, true, false, 255⟩] ∧ NoResetFor [] (Config.tiny.repsN + 1) :=
  ⟨rfl, legal_tiny, rfl, rfl, fun _ _ => ⟨Command.idle, rfl, rfl⟩⟩

/-- A command in the `done` cycle of the one before, with commands while it runs. -/
theorem witness_HostProtocolTimeline :
    (tinyCore doneRegs [cyc true true 200, cyc true false 3]).rom = some tinyRom ∧
    Legal (tinyCore doneRegs [cyc true true 200, cyc true false 3]).cfg tinyRom ∧
    (tinyCore doneRegs [cyc true true 200, cyc true false 3]).regs.st = some 0#2 ∧
    NoResetFor [cyc true false 3] (Config.tiny.repsN + 1) := by
  refine ⟨rfl, legal_tiny, rfl, fun k _ => ?_⟩
  rcases k with _ | k
  · exact ⟨_, rfl, rfl⟩
  · exact ⟨Command.idle, rfl, rfl⟩

theorem witness_TraceShowsTheEvaluation :
    (idleCore [cyc true true 255]).rom = some tinyRom ∧ Legal (idleCore [cyc true true 255]).cfg tinyRom ∧
    (idleCore [cyc true true 255]).regs.st = some 0#2 ∧ NoResetFor [] (Config.tiny.repsN + 1) ∧ 3 < Config.tiny.repsN :=
  ⟨rfl, legal_tiny, rfl, fun _ _ => ⟨Command.idle, rfl, rfl⟩, by decide⟩

/-- The same phase on two cores with other last results, another trace bit and other inputs, both runs complete. -/
theorem witness_ResultDependsOnPhaseAndTablesOnly :
    Legal Config.tiny tinyRom ∧ (idleCore [cyc true false 100]).regs.st = some 0#2 ∧
    (tinyCore doneRegs [cyc true true 100, cyc true true 9]).regs.st = some 0#2 ∧
    (∃ t, doneSteps (Config.tiny.repsN + 2) (idleCore [cyc true false 100]) = .next t) ∧
    ∃ t, doneSteps (Config.tiny.repsN + 2) (tinyCore doneRegs [cyc true true 100, cyc true true 9]) = .next t :=
  ⟨legal_tiny, rfl, rfl, completes (by decide +kernel), completes (by decide +kernel)⟩

/-- In state RUN, in state FIN, and the beginning of a computation. -/
theorem witness_CommandWhileBusyIsLost :
    (runCore []).regs.st = some 1#2 ∧ (finCore []).regs.st = some 2#2 ∧
    (∃ t, step ((runCore []).withPending [cyc true true 9]) = .next t) ∧
    InCycle (idleCore [cyc true false 255]) tinyRom ⟨false, true, false, 255⟩ 0#2 ∧
    ∃ t, step (idleCore [cyc true false 255]) = .next t ∧ t.regs.st = some 1#2 := by
  refine ⟨rfl, rfl, completes (by decide +kernel), ⟨rfl, rfl, rfl⟩, ?_⟩
  have h : regsAfter (step (idleCore [cyc true false 255])) = some (runRegs 0 374 72 (-28) false true) := by
    decide +kernel
  obtain ⟨t, h1, h2⟩ := next_of_regs h
  exact ⟨t, h1, by rw [h2]; rfl⟩

theorem witness_VectorsStayWithinTheBounds :
    configError Config.tiny = none ∧ tinyRom.rot.length = Config.tiny.repsN ∧ (∀ r ∈ tinyRom.rot, 1 ≤ r) ∧
    tinyRom.shift = generateShift Config.tiny ∧ tinyRom.lut.length = Config.tiny.ts ∧ 4 ≤ Config.tiny.repsN ∧
    boundZ Config.tiny tinyRom 4 < 2 ^ (Config.tiny.wZ - 1) ∧ boundXY tinyRom 4 < 2 ^ (Config.tiny.wXY - 1) ∧
    1 ≤ Config.tiny.wZ ∧ 1 ≤ Config.tiny.wXY := by decide +kernel

theorem witness_HalfCircleNegatesTheResult : sinCos Config.tiny tinyRom 255 = .ok (99, -4) := by decide +kernel

/-- The largest literal in range and the smallest outside. -/
theorem witness_PseudoInstructionsExpand :
    255 < 2 ^ Config.tiny.inb ∧ 2 ^ Config.tiny.inb ≤ 256 ∧ 4294967295 < 2 ^ Config.ref.inb := by decide

end Sys2Proof.Tests
end

/-! The output ports and the completion pulse: what each port shows, and which instruction writes `valid_q` (10_state.md). -/
section
namespace Sys2Proof.Machine

variable {s t : State} {r : Regs} {st : SeqCode} {tr : Bool} {α : Type}

@[simp] theorem State.outputs_busy : s.outputs.busy = s.regs.busy := rfl
@[simp] theorem State.outputs_done : s.outputs.done = s.regs.validQ := rfl
@[simp] theorem State.outputs_cosOut : s.outputs.cosOut = s.regs.cosQ := rfl
@[simp] theorem State.outputs_sinOut : s.outputs.sinOut = s.regs.sinQ := rfl
@[simp] theorem State.outputs_traceValid : s.outputs.traceValid = s.regs.traceValid := rfl
@[simp] theorem State.outputs_traceI : s.outputs.traceI = s.regs.traced s.regs.i := rfl
@[simp] theorem State.outputs_traceX : s.outputs.traceX = s.regs.traced s.regs.x := rfl
@[simp] theorem State.outputs_traceY : s.outputs.traceY = s.regs.traced s.regs.y := rfl
@[simp] theorem State.outputs_traceZ : s.outputs.traceZ = s.regs.traced s.regs.z := rfl

/-- R34, where `st` holds a value. -/
theorem Regs.busy_of_st (hst : r.st = some st) : r.busy = some (decide (st ≠ SeqCode.idle)) := by
  rw [Regs.busy, hst, Option.map_some]

/-- R173, where `st` and `tr` hold values. -/
theorem Regs.traceValid_of_st_tr (hst : r.st = some st) (htr : r.tr = some tr) :
    r.traceValid = some (decide (st = SeqCode.run ∧ tr = true)) := by
  by_cases h : st = SeqCode.run <;> simp [Regs.traceValid, hst, htr, h]

theorem Regs.traced_of_traceValid (h : r.traceValid = some true) (v : Option α) : r.traced v = v := if_pos h

theorem Regs.traced_of_not_traceValid (h : r.traceValid ≠ some true) (v : Option α) : r.traced v = none := if_neg h

/-- R33. An instruction of a clock cycle writes `valid_q`: FINISH 1, every other one 0. -/
theorem exec_validQ {i : Instr} (hg : i ≠ .generate) (hq : i ≠ .query) (h : exec i s = .next t) :
    t.regs.validQ = some (decide (i = .finish)) := by
  rcases exec_cases h with ⟨rfl, rfl⟩ | ⟨rfl, rfl⟩ | ⟨tr, p, v, rfl, -, -, rfl⟩ | ⟨rfl, k, v, w, -, -, -, rfl⟩ |
    ⟨rfl, x, y, fc, fs, -, -, -, -, -, rfl⟩ | ⟨rfl, -⟩ | ⟨rfl, -⟩
  case inr.inr.inl => cases tr <;> simp
  case inr.inr.inr.inr.inr.inl => exact absurd rfl hg
  case inr.inr.inr.inr.inr.inr => exact absurd rfl hq
  all_goals simp [Regs.reset]

/-- R75 selects FINISH exactly in state FIN with `rst = 0`. -/
theorem classify_eq_finish_iff (st : SeqCode) (cmd : Command) :
    classify st cmd = .finish ↔ st = SeqCode.fin ∧ cmd.rst = false := by
  rcases classify_cases st cmd with ⟨hr, hi⟩ | ⟨hr, rfl, -, hi⟩ | ⟨hr, rfl, -, hi⟩ | ⟨hr, rfl, hi⟩ | ⟨hr, rfl, hi⟩ |
    ⟨hr, rfl, hi⟩
  case inr.inr.inl => rw [hi, hr]; split <;> simp [SeqCode.idle, SeqCode.fin]
  all_goals simp [hi, hr, SeqCode.idle, SeqCode.run, SeqCode.fin, SeqCode.rsvd]

/-- R75 selects no operation that takes no clock cycle. -/
theorem classify_ne_static (st : SeqCode) (cmd : Command) :
    classify st cmd ≠ .generate ∧ classify st cmd ≠ .query := by
  rcases classify_cases st cmd with ⟨-, hi⟩ | ⟨-, -, -, hi⟩ | ⟨-, -, -, hi⟩ | ⟨-, -, hi⟩ | ⟨-, -, hi⟩ | ⟨-, -, hi⟩
  case inr.inr.inl => rw [hi]; split <;> simp
  all_goals simp [hi]

/-- Settles O46: the cycle performs the operation R75's table selects, which is FINISH exactly with `st = FIN` and `rst = 0`. -/
theorem doneFollowsFinishOnly : Obligations.DoneFollowsFinishOnly := by
  intro s t rom cmd st ⟨hrom, hmove, hst⟩ h
  rw [step_cycle hrom hmove hst] at h
  obtain ⟨hg, hq⟩ := classify_ne_static st (cmd.atPort s.cfg)
  rw [State.outputs_done, exec_validQ hg hq h, decide_eq_decide.mpr (classify_eq_finish_iff st (cmd.atPort s.cfg))]
  rfl

/-- Settles O45: with `st` and `tr` known, `trace_valid` is the bit `st = RUN and tr = 1`, and it gates the trace port. -/
theorem busyAndTracePort : Obligations.BusyAndTracePort := by
  intro s st tr hst htr
  have hv : s.regs.traceValid = some (decide (st = 1#2 ∧ tr = true)) := Regs.traceValid_of_st_tr hst htr
  refine ⟨Regs.busy_of_st hst, by simp [hv], by simp [hv], fun h => ?_, fun h => ?_⟩
  · have htrue : s.regs.traceValid = some true := by rw [hv, decide_eq_true h]
    simp [Regs.traced_of_traceValid htrue]
  · have hfalse : s.regs.traceValid ≠ some true := by rw [hv, decide_eq_false h]; decide
    simp [Regs.traced_of_not_traceValid hfalse]

end Sys2Proof.Machine
end

/-! The tables after elaboration: nothing writes them (20_memory.md). -/
section
namespace Sys2Proof.Machine

/-- Settles O5: a step of a built core never selects GENERATE (`step_rom`), and no other instruction writes a table
(`exec_rom`). -/
theorem tablesNeverChange : Obligations.TablesNeverChange := by
  intro s t rom hr
  exact ⟨step_rom hr, fun _ hi h => (exec_rom hi h).trans hr⟩

end Sys2Proof.Machine
end

/-! The decode word: R75's table an equation a line, the words that are packings of their fields, and R76's rows
(30_encoding.md). -/
section
namespace Sys2Proof.Machine

variable {c : Config} {st : SeqCode} {cmd : Command} {i j : Instr} {w n m v : Nat}

/-! ### The lines of R75's table -/

theorem classify_of_rst (hr : cmd.rst = true) : classify st cmd = .reset := if_pos hr

theorem classify_idle_of_not_start (hr : cmd.rst = false) (hs : cmd.start = false) :
    classify SeqCode.idle cmd = .nop := by
  simp [classify, hr, hs]

theorem classify_idle_sincos (hr : cmd.rst = false) (hs : cmd.start = true) (ht : cmd.traceEn = false) :
    classify SeqCode.idle cmd = .sincos cmd.phase := by
  simp [classify, hr, hs, ht]

theorem classify_idle_sincosT (hr : cmd.rst = false) (hs : cmd.start = true) (ht : cmd.traceEn = true) :
    classify SeqCode.idle cmd = .sincosT cmd.phase := by
  simp [classify, hr, hs, ht]

theorem classify_run (hr : cmd.rst = false) : classify SeqCode.run cmd = .iter := by simp [classify, hr]

theorem classify_fin (hr : cmd.rst = false) : classify SeqCode.fin cmd = .finish := by
  simp [classify, hr, SeqCode.idle, SeqCode.run, SeqCode.fin]

theorem classify_rsvd (hr : cmd.rst = false) : classify SeqCode.rsvd cmd = .rsvd := by
  simp [classify, hr, SeqCode.idle, SeqCode.run, SeqCode.fin, SeqCode.rsvd]

/-! ### Words and their fields -/

/-- A number of `INB + 5` bits decodes to what its fields select. -/
theorem decode_of_lt (hw : w < 2 ^ (c.inb + 5)) : decode c w = .ok (classify (dwSeq c w) (unpackCmd c w)) := if_pos hw

/-- The `st` field of a decode word, by its number. -/
theorem dwSeq_of_div_eq (h : w / 2 ^ (c.inb + 3) = n) : dwSeq c w = BitVec.ofNat 2 n := congrArg (BitVec.ofNat 2) h

/-- The bits of a decode word above the command word are one of the four codes of `st`. -/
theorem seqNumber_cases (hw : w < 2 ^ (c.inb + 5)) :
    w / 2 ^ (c.inb + 3) = 0 ∨ w / 2 ^ (c.inb + 3) = 1 ∨ w / 2 ^ (c.inb + 3) = 2 ∨ w / 2 ^ (c.inb + 3) = 3 := by
  have h : w / 2 ^ (c.inb + 3) < 4 := Nat.div_lt_of_lt_mul (hw.trans_eq (by ring))
  generalize w / 2 ^ (c.inb + 3) = n at h ⊢
  omega

/-- The command word is the decode word with `st = IDLE = 0` on top. -/
theorem packDW_idle : packDW c SeqCode.idle w = w := by simp [packDW, SeqCode.idle]

theorem packCmd_lt : packCmd c cmd < 2 ^ (c.inb + 3) := by
  have h8 : headBits SeqCode.idle cmd < 2 ^ 3 := by simpa [headBits, SeqCode.idle] using controlBits_lt cmd
  rw [← packDW_idle (c := c) (w := packCmd c cmd), packDW_eq]
  exact mul_add_lt_pow h8 (Nat.mod_lt _ (by positivity))

/-- A command that the port carries is not changed by it (R73). -/
theorem atPort_of_wellFormed (h : cmd.wellFormed c = true) : cmd.atPort c = cmd := by
  have hp : cmd.phase % 2 ^ c.inb = cmd.phase := Nat.mod_eq_of_lt (of_decide_eq_true h)
  simp only [Command.atPort, hp]

/-- Packing a command loses nothing. -/
theorem unpackCmd_packCmd (h : cmd.wellFormed c = true) : unpackCmd c (packCmd c cmd) = cmd := by
  have hu := unpackCmd_packDW c SeqCode.idle cmd
  rwa [packDW_idle, atPort_of_wellFormed h] at hu

/-- Every number of `INB + 3` bits is a command word. -/
theorem packCmd_unpackCmd (hw : w < 2 ^ (c.inb + 3)) : packCmd c (unpackCmd c w) = w := by
  have hst : dwSeq c w = SeqCode.idle := dwSeq_of_div_eq (Nat.div_eq_of_lt hw)
  have hp := packDW_fields c (hw.trans (Nat.pow_lt_pow_right (by decide) (by omega)))
  rwa [hst, packDW_idle] at hp

/-- Settles O9: the bit positions are the fields of `unpackCmd`, which undoes the packing. -/
theorem commandWordPacksTheInputs : Obligations.CommandWordPacksTheInputs := by
  refine ⟨fun c cmd hc => ?_, fun c w hw => packCmd_unpackCmd hw, by decide⟩
  have hu := unpackCmd_packCmd hc
  exact ⟨packCmd_lt, hu, congrArg Command.rst hu, congrArg Command.start hu, congrArg Command.traceEn hu,
    congrArg Command.phase hu⟩

/-- Settles O10: the decoder classifies the fields, and each clause is a line of R75's table. -/
theorem decodeFollowsTheTable : Obligations.DecodeFollowsTheTable := by
  intro c w hw st rst start traceEn phase
  rw [decode_of_lt hw]
  refine ⟨fun hr => ?_, fun ⟨hr, h0, hs⟩ => ?_, fun ⟨hr, h0, hs, ht⟩ => ?_, fun ⟨hr, h0, hs, ht⟩ => ?_,
    fun ⟨hr, h1⟩ => ?_, fun ⟨hr, h2⟩ => ?_, fun ⟨hr, h3⟩ => ?_, .inr (seqNumber_cases hw)⟩
  · exact congrArg _ (classify_of_rst hr)
  · rw [dwSeq_of_div_eq h0]; exact congrArg _ (classify_idle_of_not_start hr hs)
  · rw [dwSeq_of_div_eq h0]; exact congrArg _ (classify_idle_sincos hr hs ht)
  · rw [dwSeq_of_div_eq h0]; exact congrArg _ (classify_idle_sincosT hr hs ht)
  · rw [dwSeq_of_div_eq h1]; exact congrArg _ (classify_run hr)
  · rw [dwSeq_of_div_eq h2]; exact congrArg _ (classify_fin hr)
  · rw [dwSeq_of_div_eq h3]; exact congrArg _ (classify_rsvd hr)

/-! ### The rows of R76's table -/

/-- The operation with the phase 0: what is left of an instruction in a row of R76's table. -/
def atPhaseZero : Instr → Instr
  | .sincos _ => .sincos 0
  | .sincosT _ => .sincosT 0
  | i => i

theorem atPhaseZero_classify : atPhaseZero (classify st cmd) = classify st { cmd with phase := 0 } := by
  unfold classify; split_ifs <;> rfl

/-- Two instructions lie on one row exactly when they have an encoding and differ in the phase at most. -/
theorem sameRow_iff : sameRow i j = true ↔ i.hasEncoding = true ∧ atPhaseZero i = atPhaseZero j := by
  cases i <;> cases j <;> simp [sameRow, Instr.hasEncoding, atPhaseZero]

/-- The mask and the match value of a row in the bits above the phase, `{st, rst, start, trace_en}`. -/
def rowBits : Instr → Nat × Nat
  | .reset => (0b00100, 0b00100)
  | .nop => (0b11110, 0b00000)
  | .sincos _ => (0b11111, 0b00010)
  | .sincosT _ => (0b11111, 0b00011)
  | .iter => (0b11100, 0b01000)
  | .finish => (0b11100, 0b10000)
  | .rsvd => (0b11100, 0b11000)
  | .generate => (0, 0)
  | .query => (0, 0)

/-- Exactly the operations with an encoding have a row, and its values are those of `rowBits` above `INB` zeros. -/
theorem row_iff : (opMask c i = some m ∧ opMatch c i = some v) ↔
    i.hasEncoding = true ∧ m = (rowBits i).1 * 2 ^ c.inb ∧ v = (rowBits i).2 * 2 ^ c.inb := by
  cases i <;> simp [opMask, opMatch, rowBits, Instr.hasEncoding, eq_comm]

/-- A mask without its `n` lowest bits sees only the bits above them. -/
theorem and_mul_two_pow (w a n : Nat) : w &&& a * 2 ^ n = (w / 2 ^ n &&& a) * 2 ^ n := by
  refine Nat.eq_of_testBit_eq fun k => ?_
  simp only [Nat.testBit_and, Nat.testBit_mul_two_pow, Nat.testBit_div_two_pow]
  by_cases h : n ≤ k <;> simp [h]

/-- The bits of a packed word above the phase. -/
theorem packDW_div : packDW c st (packCmd c cmd) / 2 ^ c.inb = headBits st cmd := by
  rw [packDW_eq, Nat.mul_add_div (by positivity), Nat.div_eq_of_lt (Nat.mod_lt _ (by positivity)), Nat.add_zero]

/-- R76's table in the five upper bits: they match the row of an operation exactly when R75 selects that operation. -/
theorem headBits_match_iff : ∀ i ∈ [Instr.reset, .nop, .sincos 0, .sincosT 0, .iter, .finish, .rsvd],
    ∀ (st : SeqCode) (r b t : Bool),
      headBits st ⟨r, b, t, 0⟩ &&& (rowBits i).1 = (rowBits i).2 ↔ i = classify st ⟨r, b, t, 0⟩ := by
  decide

theorem atPhaseZero_mem (h : i.hasEncoding = true) :
    atPhaseZero i ∈ [Instr.reset, .nop, .sincos 0, .sincosT 0, .iter, .finish, .rsvd] := by
  cases i <;> simp_all [atPhaseZero, Instr.hasEncoding]

theorem rowBits_atPhaseZero : rowBits (atPhaseZero i) = rowBits i := by cases i <;> rfl

/-- R76. A packed word matches the row of an operation exactly when R75 selects an operation of that row. -/
theorem packDW_match_iff (hm : opMask c i = some m) (hv : opMatch c i = some v) :
    packDW c st (packCmd c cmd) &&& m = v ↔ sameRow i (classify st cmd) = true := by
  obtain ⟨he, rfl, rfl⟩ := row_iff.mp ⟨hm, hv⟩
  rw [and_mul_two_pow, packDW_div, Nat.mul_left_inj (by positivity), sameRow_iff, atPhaseZero_classify,
    ← rowBits_atPhaseZero]
  exact (headBits_match_iff _ (atPhaseZero_mem he) st cmd.rst cmd.start cmd.traceEn).trans (iff_and_self.mpr fun _ => he)

/-- The same of any decode word and its fields. -/
theorem match_iff (hw : w < 2 ^ (c.inb + 5)) (hm : opMask c i = some m) (hv : opMatch c i = some v) :
    w &&& m = v ↔ sameRow i (classify (dwSeq c w) (unpackCmd c w)) = true := by
  rw [← packDW_match_iff hm hv, packDW_fields c hw]

/-- An operation of a clock cycle has an encoding. -/
theorem hasEncoding_classify : (classify st cmd).hasEncoding = true := by
  unfold classify; split_ifs <;> rfl

/-- Settles O11: the five upper bits of a word match exactly the row of the operation they select (`match_iff`), so rows are
disjoint, and the row of the selected operation matches. -/
theorem maskAndMatchSelectTheRow : Obligations.MaskAndMatchSelectTheRow := by
  refine ⟨fun c w i m v hw hm hv => ?_, fun c w hw => ?_, fun c w i j m v m' v' hw hm hv hm' hv' h h' => ?_, rfl, rfl⟩
  · simp [match_iff hw hm hv, decode_of_lt hw]
  · have he : (classify (dwSeq c w) (unpackCmd c w)).hasEncoding = true := hasEncoding_classify
    obtain ⟨hm, hv⟩ := row_iff.mpr ⟨he, rfl, rfl⟩
    exact ⟨_, _, _, hm, hv, (match_iff hw hm hv).mpr (sameRow_iff.mpr ⟨he, rfl⟩)⟩
  · obtain ⟨he, hi⟩ := sameRow_iff.mp ((match_iff hw hm hv).mp h)
    obtain ⟨-, hj⟩ := sameRow_iff.mp ((match_iff hw hm' hv').mp h')
    exact sameRow_iff.mpr ⟨he, hi.trans hj.symm⟩

end Sys2Proof.Machine
end

/-! The reserved sequencer code (30_encoding.md, R78). -/
section
namespace Sys2Proof.Machine

variable {s t : State} {i : Instr}

/-- No completed instruction writes the reserved code into `st`. -/
theorem exec_st_ne_rsvd (hs : s.regs.st ≠ some SeqCode.rsvd) (h : exec i s = .next t) :
    t.regs.st ≠ some SeqCode.rsvd := by
  have hidle : some SeqCode.idle ≠ some SeqCode.rsvd := by decide
  have hrun : some SeqCode.run ≠ some SeqCode.rsvd := by decide
  have hfin : some SeqCode.fin ≠ some SeqCode.rsvd := by decide
  rcases exec_cases h with ⟨-, rfl⟩ | ⟨-, rfl⟩ | ⟨tr, p, v, -, -, -, rfl⟩ | ⟨-, k, v, w, -, -, -, rfl⟩ |
    ⟨-, x, y, fc, fs, -, -, -, -, -, rfl⟩ | ⟨-, -, -, rfl⟩ | ⟨-, rfl⟩
  · exact hidle
  · exact hs
  · exact hrun
  · rw [State.withRegs_regs, Regs.iterated_st]
    split
    · exact hfin
    · exact hs
  · exact hidle
  · exact hs
  · exact hs

/-- Settles O33: R75's last line is the fault, `rst = 1` is RESET in any state, and no instruction writes the code
(`exec_st_ne_rsvd`). -/
theorem reservedCodeFaultsAndIsUnreachable : Obligations.ReservedCodeFaultsAndIsUnreachable := by
  refine ⟨fun s => rfl, fun s rom cmd ⟨hrom, hmove, hst⟩ hr => ?_, fun s rom cmd ⟨hrom, hmove, _⟩ hr => ?_,
    fun s t hs h => ?_⟩
  · have hc : classify 3#2 (cmd.atPort s.cfg) = .rsvd := classify_rsvd hr
    rw [step_cycle hrom hmove hst, hc]; rfl
  · exact ⟨_, step_rst hrom hmove hr, rfl⟩
  · obtain ⟨i, -, hx⟩ := step_next h
    exact exec_st_ne_rsvd (by rwa [consumed_regs]) hx

end Sys2Proof.Machine
end

/-! The phase word: its reduction modulo the circle and its fields (30_encoding.md, R71 to R73). -/
section
namespace Sys2Proof.Machine

variable {s : State} {c : Config} {rom : Rom} {tr : Bool} {p : Nat}

/-- The port carries a phase as it carries its value modulo `2^INB` (R73). -/
theorem portPhase_mod : portPhase c (p % 2 ^ c.inb) = portPhase c p := Nat.mod_mod p (2 ^ c.inb)

/-- The load reads the phase at the port only. -/
theorem load_mod : load tr (p % 2 ^ s.cfg.inb) s = load tr p s := by simp only [load, portPhase_mod]

/-- `SinCos` reads the phase at the port only. -/
theorem sinCos_mod : sinCos c rom (p % 2 ^ c.inb) = sinCos c rom p := by simp only [sinCos, vecAt, portPhase_mod]

/-- Settles O17: each of the uses reads the phase at the port, which reduces it. -/
theorem phaseIsTakenModuloTheCircle : Obligations.PhaseIsTakenModuloTheCircle := by
  intro c rom s p r b t
  exact ⟨by simp only [packCmd, Nat.mod_mod], load_mod.symm, load_mod.symm, sinCos_mod.symm, portPhase_lt p, portPhase_of_lt⟩

theorem bitVal_testBit (p k : Nat) : bitVal (p.testBit k) = p / 2 ^ k % 2 := by
  rw [← Nat.toNat_testBit]; cases p.testBit k <;> rfl

/-- The two upper bits of a phase are its quadrant's number (R71). -/
theorem quadrant_eq (hp : p < 2 ^ c.inb) :
    p / 2 ^ (c.inb - 2) = 2 * bitVal (phaseQ1 c p) + bitVal (phaseQ0 c p) := by
  obtain ⟨n, hn⟩ : ∃ n, c.inb = n + 2 := ⟨c.ibN + c.cbN, by unfold Config.inb; omega⟩
  have hq : p / 2 ^ n < 4 := Nat.div_lt_of_lt_mul (hp.trans_eq (by rw [hn]; ring))
  have h1 : p / 2 ^ (n + 1) = p / 2 ^ n / 2 := by rw [pow_succ, Nat.div_div_eq_div_mul]
  simp only [phaseQ1, phaseQ0, bitVal_testBit, hn, Nat.add_sub_cancel, show n + 2 - 1 = n + 1 from rfl, h1]
  generalize p / 2 ^ n = q at hq ⊢
  omega

/-- A phase is its quadrant's number, its index and its residual (R71). -/
theorem phase_eq_fields : p = p / 2 ^ (c.inb - 2) * 2 ^ (c.inb - 2) + phaseIndex c p * 2 ^ c.cbN + phaseRes c p := by
  have hn : c.inb - 2 = c.cbN + c.ibN := by unfold Config.inb; omega
  rw [hn, pow_add, ← Nat.div_div_eq_div_mul, phaseIndex, phaseRes]
  calc p = p / 2 ^ c.cbN * 2 ^ c.cbN + p % 2 ^ c.cbN := (Nat.div_add_mod' ..).symm
    _ = (p / 2 ^ c.cbN / 2 ^ c.ibN * 2 ^ c.ibN + p / 2 ^ c.cbN % 2 ^ c.ibN) * 2 ^ c.cbN + p % 2 ^ c.cbN := by
      rw [Nat.div_add_mod' (p / 2 ^ c.cbN)]
    _ = _ := by ring

/-- Settles O18: the phase splits off its residual and its index (`phase_eq_fields`), and what is left is the two quadrant
bits (`quadrant_eq`). -/
theorem phaseFieldsPartitionThePhase : Obligations.PhaseFieldsPartitionThePhase := by
  refine ⟨fun c p hp => ?_, fun p _ => ⟨rfl, rfl, rfl, rfl⟩, fun p _ => ⟨rfl, rfl, rfl, rfl⟩⟩
  refine ⟨?_, Nat.mod_lt _ (by positivity), Nat.mod_lt _ (by positivity), quadrant_eq hp, fun h => ?_⟩
  · have hn : c.inb - 1 = c.inb - 2 + 1 := by unfold Config.inb; omega
    calc p = (2 * bitVal (phaseQ1 c p) + bitVal (phaseQ0 c p)) * 2 ^ (c.inb - 2) + phaseIndex c p * 2 ^ c.cbN
          + phaseRes c p := by rw [← quadrant_eq hp]; exact phase_eq_fields
      _ = _ := by rw [hn, pow_succ]; ring
  · rw [phaseRes, h, pow_zero, Nat.mod_one]

end Sys2Proof.Machine
end

/-! Which operation a cycle selects, and NOP (30_encoding.md, R75; 41_rotation_engine.md, R141). -/
section
namespace Sys2Proof.Machine

variable {s : State} {rom : Rom} {cmd : Command} {st : SeqCode} {i : Instr}

/-- A step of a built core performs the operation it selects on the state with the host's move taken. -/
theorem step_of_selectInstr (hrom : s.rom = some rom) (hi : selectInstr s = .next i) : step s = exec i (dropMove s) := by
  simp only [step, hi, consumed, hrom]

/-- A cycle of a built core selects the operation of R75's table. -/
theorem InCycle.selectInstr_eq (h : InCycle s rom cmd st) (hi : classify st (cmd.atPort s.cfg) = i) :
    selectInstr s = .next i := by
  simp only [selectInstr, h.built, h.move, cycleInstr_of_st h.code, hi]

/-- A cycle of a built core performs the operation of R75's table on the state with the host's move taken. -/
theorem InCycle.step_eq (h : InCycle s rom cmd st) (hi : classify st (cmd.atPort s.cfg) = i) :
    step s = exec i (dropMove s) :=
  step_of_selectInstr h.built (h.selectInstr_eq hi)

/-- R142's and R143's selection: a command accepted in IDLE is the load of its phase, with `trace_en` as the trace latch. -/
theorem InCycle.step_start (h : InCycle s rom cmd SeqCode.idle) (hr : cmd.rst = false) (hs : cmd.start = true) :
    step s = load cmd.traceEn cmd.phase (dropMove s) := by
  cases ht : cmd.traceEn with
  | false => exact (h.step_eq (classify_idle_sincos hr hs ht)).trans load_mod
  | true => exact (h.step_eq (classify_idle_sincosT hr hs ht)).trans load_mod

/-- Settles O32: NOP is one write of `valid_q`, and the line of R75's table with `start = 0` selects it. -/
theorem nopOnlyClearsValid : Obligations.NopOnlyClearsValid :=
  ⟨fun _ => rfl, fun _ _ _ h hr hs => h.step_eq (classify_idle_of_not_start hr hs)⟩

end Sys2Proof.Machine
end

/-! The load: the flips, the residual, and SINCOS and SINCOS.T (41_rotation_engine.md, R132 to R135, R142, R143). -/
section
namespace Sys2Proof.Machine

variable {s t : State} {c : Config} {p : Nat} {v : Vec} {tr : Bool}

/-- Settles O19: the two quadrant bits are the digits of the quadrant's number (`quadrant_eq`), so that number
fixes both flips. -/
theorem flipsFollowTheQuadrant : Obligations.FlipsFollowTheQuadrant := by
  intro c p hp
  refine ⟨rfl, rfl, ?_⟩
  rw [quadrant_eq hp, flipCos, flipSin]
  cases phaseQ1 c p <;> cases phaseQ0 c p <;> decide

/-- R133 with `q0 = 1`. -/
theorem foldedResidual_of_q0 (h : phaseQ0 c p = true) : foldedResidual c p = c.zf - residual c p := if_pos h

/-- R133 with `q0 = 0`. -/
theorem foldedResidual_of_not_q0 (h : phaseQ0 c p = false) : foldedResidual c p = residual c p := by
  simp [foldedResidual, h]

theorem residual_eq : residual c p = (phaseRes c p : Int) * 2 ^ c.zeN := by simp [residual]

theorem zf_eq_pow : c.zf = 2 ^ (c.cbN + c.zeN) := by simp [Config.zf]

theorem half_eq_pow : c.half = 2 ^ (c.cbN + c.zeN - 1) := by simp [Config.half]

/-- Settles O20: the residual is in `[0, ZF - 2^ZE]` (`residual_range`) and `ZF = 2 * HALF` (`zf_eq`), which bounds both
halves. -/
theorem residualIsFoldedAndCentred : Obligations.ResidualIsFoldedAndCentred := by
  intro c p hc
  obtain ⟨-, -, hcz, -⟩ := configError_none hc
  obtain ⟨hlow, hhigh⟩ := residual_range (c := c) p
  have hzf : c.zf = 2 * c.half := zf_eq hcz
  refine ⟨fun h => ?_, fun h h0 => ?_, foldedResidual_of_not_q0, residual_eq, ?_, fun h => ?_, fun h => ?_⟩
  · rw [foldedResidual_of_q0 h, zf_eq_pow]
  · simp [foldedResidual_of_q0 h, residual_eq, h0]
  · rw [startZ, half_eq_pow]
  · rw [startZ, foldedResidual_of_not_q0 h]; constructor <;> linarith
  · rw [startZ, foldedResidual_of_q0 h]; constructor <;> linarith

/-- The load where its table entries exist. -/
theorem load_of_loadVec (h : loadVec s.cfg s.tables (portPhase s.cfg p) = .ok v) :
    load tr p s = if v.fits s.cfg then .next (s.withRegs (s.regs.loaded s.cfg (portPhase s.cfg p) tr v))
      else .fault .overflow := by
  simp only [load, h]; rfl

/-- Settles O22: with both entries given, the load is the one of their vector (`load_of_loadVec`), which is the rule's
pseudocode. -/
theorem sincosWritesTheLoad : Obligations.SincosWritesTheLoad := by
  refine ⟨fun s rom cmd h hr hs ht => ?_, ?_⟩
  · rw [InCycle.step_start h hr hs, ht]; rfl
  · intro s rom phase a b ea eb hrom p z x y ha hb hea heb
    subst ha hb
    have hv : loadVec s.cfg s.tables (portPhase s.cfg phase) = .ok ⟨x, y, z⟩ := by
      rw [tables_of_rom hrom]
      exact loadVec_ok_iff.mpr ⟨ea, eb, hea, heb, rfl⟩
    exact load_of_loadVec hv

/-- The faults of a load, whatever the trace latch it writes. -/
theorem load_fault_iff {f : Fault} : load tr p s = .fault f ↔
    loadVec s.cfg s.tables (portPhase s.cfg p) = .error f ∨
      ∃ v, loadVec s.cfg s.tables (portPhase s.cfg p) = .ok v ∧ v.fits s.cfg = false ∧ .overflow = f := by
  cases h : loadVec s.cfg s.tables (portPhase s.cfg p) with
  | error g => simp [load, h, raise]
  | ok v => cases hf : v.fits s.cfg <;> simp [load_of_loadVec h, hf]

theorem load_ne_refused {r : Refusal} : load tr p s ≠ .refused r := by
  cases h : loadVec s.cfg s.tables (portPhase s.cfg p) with
  | error g => simp [load, h, raise]
  | ok v => cases hf : v.fits s.cfg <;> simp [load_of_loadVec h, hf]

/-- The state with another trace latch. -/
def State.withTrace (s : State) (b : Bool) : State := { s with regs := { s.regs with tr := some b } }

/-- A state is fixed by its trace latch and the state with another one. -/
theorem State.eq_withTrace (h : t.regs.tr = some tr) (b : Bool) : t = (t.withTrace b).withTrace tr := by
  unfold State.withTrace; rw [← h]

/-- Loads of one phase with different trace latches complete together, and differ in that latch. -/
theorem load_next_iff_withTrace (a b : Bool) :
    load a p s = .next t ↔ t.regs.tr = some a ∧ load b p s = .next (t.withTrace b) := by
  constructor
  · intro h
    obtain ⟨v, hv, hf, rfl⟩ := load_next_iff.mp h
    exact ⟨rfl, load_next_iff.mpr ⟨v, hv, hf, rfl⟩⟩
  · rintro ⟨ha, h⟩
    obtain ⟨v, hv, hf, ht⟩ := load_next_iff.mp h
    refine load_next_iff.mpr ⟨v, hv, hf, ?_⟩
    rw [t.eq_withTrace ha b, ht]; rfl

/-- Settles O24: both operations are the load, whose completions differ in the latch alone (`load_next_iff_withTrace`) and
whose faults do not see it (`load_fault_iff`). -/
theorem sincosTDiffersOnlyInTheTraceLatch : Obligations.SincosTDiffersOnlyInTheTraceLatch := by
  refine ⟨fun s rom cmd h hr hs ht => ?_, fun s phase => ⟨fun t => ?_, fun f => ?_, fun r => ?_⟩⟩
  · rw [InCycle.step_start h hr hs, ht]; rfl
  · exact load_next_iff_withTrace false true
  · exact load_fault_iff.trans load_fault_iff.symm
  · exact load_ne_refused

end Sys2Proof.Machine
end

/-! The iteration and the result: ITER and FINISH (41_rotation_engine.md, R136 to R138, R144, R145). -/
section
namespace Sys2Proof.Machine

variable {s : State} {r : Regs} {c : Config} {rom : Rom} {n k i : Nat} {a : SVal} {v w : Vec}

/-- R136 for a negative accumulator. -/
theorem rotate_of_neg (h : v.z < 0) : rotate k a v = ⟨v.x + v.y / 2 ^ k, v.y - v.x / 2 ^ k, 2 * (v.z + a)⟩ := by
  simp [rotate, negative, h, asr_eq]

/-- R136 for an accumulator that is not negative. -/
theorem rotate_of_nonneg (h : 0 ≤ v.z) : rotate k a v = ⟨v.x - v.y / 2 ^ k, v.y + v.x / 2 ^ k, 2 * (v.z - a)⟩ := by
  simp [rotate, negative, not_lt.mpr h, asr_eq]

/-- An iteration inside the tables rotates by their entries. -/
theorem rotateAt_of_entries (hk : rom.shift[n]? = some k) (ha : rom.rot[n]? = some a) :
    rotateAt rom n v = .ok (rotate k a v) :=
  rotateAt_ok_iff.mpr ⟨k, a, hk, ha, rfl⟩

/-- Settles O26: the two signs of `z` are the two branches of the rotation. -/
theorem rotationIsThePseudocode : Obligations.RotationIsThePseudocode := by
  intro rom n k r v hk hr tx ty s
  rw [rotateAt_of_entries hk hr]
  refine ⟨?_, fun hz => congrArg _ (rotate_of_neg hz), fun hz => congrArg _ (rotate_of_nonneg hz)⟩
  rcases lt_or_ge v.z 0 with hz | hz
  · have hs : s = -1 := if_pos hz
    rw [rotate_of_neg hz, hs]; simp [tx, ty, sub_eq_add_neg]
  · have hs : s = 1 := if_neg (not_lt.mpr hz)
    rw [rotate_of_nonneg hz, hs]; simp [tx, ty]

/-- ITER where its registers hold values and its table entries exist. -/
theorem execIter_of_reads (h : readIter s.regs = .ok (i, v)) (hw : rotateAt s.tables i v = .ok w) :
    execIter s = if w.fits s.cfg then .next (s.withRegs (s.regs.iterated s.cfg i w)) else .fault .overflow := by
  simp only [execIter, h, hw]; rfl

/-- The last iteration by its number, `REPS - 1`: the two cases of R144 in one record. -/
theorem Regs.iterated_eq (hc : 1 ≤ c.repsN) (hi : r.i = some i) :
    r.iterated c i v = { r with
      x := some v.x, y := some v.y, z := some v.z,
      st := if i = c.repsN - 1 then some SeqCode.fin else r.st,
      i := if i = c.repsN - 1 then some i else some (i + 1), validQ := some false } := by
  by_cases h : i = c.repsN - 1
  · rw [Regs.iterated, if_pos (by omega), if_pos h, if_pos h, ← hi]
  · rw [Regs.iterated, if_neg (by omega), if_neg h, if_neg h]

/-- Settles O27: ITER writes the rotation of the vector it reads (`execIter_of_reads`), and the sign of `z` picks the branch
of the rotation. -/
theorem iterWritesTheRotation : Obligations.IterWritesTheRotation := by
  refine ⟨fun _ _ _ h hr => h.step_eq (classify_run hr), ?_⟩
  intro s rom i k r v hrom hreps ⟨hi, hx, hy, hz⟩ hk hr tx ty x' y' zt
  have hw : rotate k r v = ⟨x', y', 2 * zt⟩ := by
    simp only [x', y', zt, tx, ty]
    split_ifs with hneg
    · exact rotate_of_neg hneg
    · exact rotate_of_nonneg (not_lt.mp hneg)
  have hrot : rotateAt s.tables i v = .ok ⟨x', y', 2 * zt⟩ := by
    rw [tables_of_rom hrom, rotateAt_of_entries hk hr, hw]
  have hexec := execIter_of_reads (readIter_ok_iff.mpr ⟨hi, hx, hy, hz⟩) hrot
  rw [Regs.iterated_eq hreps hi] at hexec
  exact hexec

theorem outputOf_eq (flip : Bool) : outputOf c flip a = (if flip then -a else a) / 2 ^ c.oeN := asr_eq _ _

/-- Settles O29: `SinCos` is the two outputs of the last vector, and a negation moves the floor by one (`asr_neg`). -/
theorem outputNegatesThenShifts : Obligations.OutputNegatesThenShifts := by
  intro c rom p v hv
  refine ⟨?_, fun a ha => ?_⟩
  · simp only [sinCos, hv, outputOf_eq]
  · exact (asr_neg a c.oeN).trans (if_neg ha)

theorem negationFits_iff (flip : Bool) : negationFits c flip a = true ↔ (flip = true → fits c.wXY (-a) = true) := by
  cases flip <;> simp [negationFits]

/-- FINISH where its registers hold values. -/
theorem execFinish_of_reads {x y : SVal} {fc fs : Bool} (h : readFinish s.regs = .ok ((x, y), (fc, fs))) :
    execFinish s =
      if negationFits s.cfg fc x = true ∧ negationFits s.cfg fs y = true then
        if fits s.cfg.wOut (outputOf s.cfg fc x) = true ∧ fits s.cfg.wOut (outputOf s.cfg fs y) = true then
          .next (s.withRegs (s.regs.finished (outputOf s.cfg fc x) (outputOf s.cfg fs y)))
        else .fault .outRange
      else .fault .overflow := by
  simp only [execFinish, h, Bool.and_eq_true]; rfl

/-- Settles O30: FINISH writes the two outputs of what it reads (`execFinish_of_reads`), and an output is the flipped
coordinate over `2^OE`. -/
theorem finishWritesTheResult : Obligations.FinishWritesTheResult := by
  refine ⟨fun _ _ _ h hr => h.step_eq (classify_fin hr), ?_⟩
  intro s x y fc fs hx hy hfc hfs c v
  have hexec := execFinish_of_reads (readFinish_ok_iff.mpr ⟨hx, hy, hfc, hfs⟩)
  simp only [negationFits_iff, outputOf_eq] at hexec
  exact hexec

end Sys2Proof.Machine
end

/-! One evaluation from the accepted command to the result (41_rotation_engine.md, R146, R147). -/
section
namespace Sys2Proof.Machine

variable {s : State} {rom : Rom} {cmd : Command} {ms : List HostMove} {k : Nat} {v : Vec}

/-- The evaluation reads the phase at the port only (R73). -/
theorem vecAt_portPhase {c : Config} {p : Nat} : vecAt c rom (portPhase c p) k = vecAt c rom p k := by
  simp only [vecAt, portPhase, Nat.mod_mod]

/-- A legal core in IDLE is about to accept the command `cmd`, and no cycle of its evaluation is a reset (R146). -/
structure Accepts (s : State) (rom : Rom) (cmd : Command) (ms : List HostMove) : Prop where
  built : s.rom = some rom
  legal : Legal s.cfg rom
  idle : s.regs.st = some SeqCode.idle
  moves : s.pending = .cycle cmd :: ms
  noRst : cmd.rst = false
  start : cmd.start = true
  undisturbed : NoResetFor ms (s.cfg.repsN + 1)

/-- The state `s` with the load and `k` iterations of the evaluation of `cmd` done, up to the vector `v`, and as many of the
moves `ms` taken. -/
def State.evaluating (s : State) (cmd : Command) (ms : List HostMove) (k : Nat) (v : Vec) : State :=
  (s.withRegs (s.regs.evaluating s.cfg (portPhase s.cfg cmd.phase) cmd.traceEn k v)).withPending (ms.drop k)

/-- The cycle after the load and `k` iterations: no reset, in state RUN or, after the last iteration, FIN. -/
theorem Accepts.inCycle_evaluating (h : Accepts s rom cmd ms) (hk : k ≤ s.cfg.repsN) (v : Vec) :
    ∃ cmd', cmd'.rst = false ∧
      InCycle (s.evaluating cmd ms k v) rom cmd' (if k = s.cfg.repsN then SeqCode.fin else SeqCode.run) := by
  obtain ⟨cmd', hmove, hrst⟩ := h.undisturbed k (Nat.lt_succ_of_le hk)
  refine ⟨cmd', hrst, h.built, ?_, rfl⟩
  rw [nextMove_eq]
  exact (moveAt_drop ms k 0).trans hmove

/-- While iterations are left, the cycle is ITER. -/
theorem Accepts.selectInstr_iter (h : Accepts s rom cmd ms) (hk : k < s.cfg.repsN) (v : Vec) :
    selectInstr (s.evaluating cmd ms k v) = .next .iter := by
  obtain ⟨cmd', hrst, hcycle⟩ := h.inCycle_evaluating hk.le v
  rw [if_neg hk.ne] at hcycle
  exact hcycle.selectInstr_eq (classify_run hrst)

/-- The cycle after the last iteration is FINISH. -/
theorem Accepts.selectInstr_finish (h : Accepts s rom cmd ms) (v : Vec) :
    selectInstr (s.evaluating cmd ms s.cfg.repsN v) = .next .finish := by
  obtain ⟨cmd', hrst, hcycle⟩ := h.inCycle_evaluating le_rfl v
  rw [if_pos rfl] at hcycle
  exact hcycle.selectInstr_eq (classify_fin hrst)

/-- The accepted command loads the first vector of its phase's evaluation (R142, R143). -/
theorem Accepts.step_load (h : Accepts s rom cmd ms) :
    ∃ v, vecAt s.cfg rom cmd.phase 0 = .ok v ∧ step s = .next (s.evaluating cmd ms 0 v) := by
  have hc : InCycle s rom cmd SeqCode.idle := ⟨h.built, by rw [nextMove, h.moves], h.idle⟩
  obtain ⟨v, hv, -, hload⟩ := exec_load_ok (s := dropMove s) h.built h.legal cmd.traceEn cmd.phase
  refine ⟨v, (vecAt_zero cmd.phase).trans hv, ?_⟩
  have hreps : 0 ≠ s.cfg.repsN := by have := h.legal.reps_pos; omega
  rw [hc.step_start h.noRst h.start, hload]
  simp only [State.evaluating, Regs.evaluating, if_neg hreps, dropMove, h.moves]
  rfl

/-- A step before the last vector is one iteration on (R144). -/
theorem Accepts.step_iter (h : Accepts s rom cmd ms) (hk : k < s.cfg.repsN) (hv : vecAt s.cfg rom cmd.phase k = .ok v) :
    ∃ w, vecAt s.cfg rom cmd.phase (k + 1) = .ok w ∧
      step (s.evaluating cmd ms k v) = .next (s.evaluating cmd ms (k + 1) w) := by
  have hi : (s.evaluating cmd ms k v).regs.i = some k := congrArg some (if_neg hk.ne)
  obtain ⟨w, hw, -, hiter⟩ := exec_iter_ok (s := dropMove (s.evaluating cmd ms k v)) h.built h.legal hi hk
    (portPhase_lt cmd.phase) (vecAt_portPhase.trans hv) rfl rfl rfl
  have hnext : (dropMove (s.evaluating cmd ms k v)).withRegs ((s.evaluating cmd ms k v).regs.iterated s.cfg k w) =
      s.evaluating cmd ms (k + 1) w := by
    simp only [State.evaluating, dropMove, State.withPending_regs, State.withRegs_regs, State.withPending_pending,
      Regs.evaluating_iterated hk, List.tail_drop]
    rfl
  refine ⟨w, vecAt_portPhase.symm.trans hw, ?_⟩
  calc step (s.evaluating cmd ms k v) = exec .iter (dropMove (s.evaluating cmd ms k v)) :=
        step_of_selectInstr (s := s.evaluating cmd ms k v) h.built (h.selectInstr_iter hk v)
    _ = .next (s.evaluating cmd ms (k + 1) w) := hiter.trans (congrArg _ hnext)

/-- The state after FINISH of the evaluation of `cmd` with last vector `v` and results `a` and `b`. -/
def State.evaluated (s : State) (cmd : Command) (ms : List HostMove) (v : Vec) (a b : SVal) : State :=
  (dropMove (s.evaluating cmd ms s.cfg.repsN v)).withRegs ((s.evaluating cmd ms s.cfg.repsN v).regs.finished a b)

/-- The step from the last vector gives `SinCos` of the phase (R145). -/
theorem Accepts.step_finish (h : Accepts s rom cmd ms) (hv : vecAt s.cfg rom cmd.phase s.cfg.repsN = .ok v) :
    ∃ a b, sinCos s.cfg rom cmd.phase = .ok (a, b) ∧
      step (s.evaluating cmd ms s.cfg.repsN v) = .next (s.evaluated cmd ms v a b) := by
  obtain ⟨-, -, hsc, hfin⟩ := exec_finish_ok (s := dropMove (s.evaluating cmd ms s.cfg.repsN v)) h.legal
    (portPhase_lt cmd.phase) (vecAt_portPhase.trans hv) rfl rfl rfl rfl
  exact ⟨_, _, sinCos_mod.symm.trans hsc,
    (step_of_selectInstr (s := s.evaluating cmd ms s.cfg.repsN v) h.built (h.selectInstr_finish v)).trans hfin⟩

/-- After the load and `k` iterations the machine is at vector `k` of its phase's evaluation (R146). -/
theorem Accepts.runFor_evaluating (h : Accepts s rom cmd ms) : ∀ {k : Nat}, k ≤ s.cfg.repsN →
    ∃ v, vecAt s.cfg rom cmd.phase k = .ok v ∧ runFor (k + 1) s = .next (s.evaluating cmd ms k v)
  | 0, _ => by
    obtain ⟨v, hv, hstep⟩ := h.step_load
    exact ⟨v, hv, (runFor_next (runFor_zero s)).trans hstep⟩
  | k + 1, hk => by
    obtain ⟨v, hv, hrun⟩ := h.runFor_evaluating (Nat.le_of_succ_le hk)
    obtain ⟨w, hw, hstep⟩ := h.step_iter hk hv
    exact ⟨w, hw, (runFor_next hrun).trans hstep⟩

/-- The evaluation ends after `REPS + 2` steps with `SinCos` of the phase (R146). -/
theorem Accepts.runFor_evaluated (h : Accepts s rom cmd ms) :
    ∃ v a b, vecAt s.cfg rom cmd.phase s.cfg.repsN = .ok v ∧ sinCos s.cfg rom cmd.phase = .ok (a, b) ∧
      runFor (s.cfg.repsN + 2) s = .next (s.evaluated cmd ms v a b) := by
  obtain ⟨v, hv, hrun⟩ := h.runFor_evaluating le_rfl
  obtain ⟨a, b, hsc, hstep⟩ := h.step_finish hv
  exact ⟨v, a, b, hv, hsc, (runFor_next hrun).trans hstep⟩

/-- Settles O52: `k + 1` steps are at vector `k` of the evaluation (`Accepts.runFor_evaluating`), where the next operation is
ITER, or FINISH at the last vector, and `REPS + 2` steps end it (`Accepts.runFor_evaluated`). -/
theorem evaluationComputesSinCos : Obligations.EvaluationComputesSinCos := by
  intro s rom cmd ms hrom hlegal hst hms hr hs hq
  have h : Accepts s rom cmd ms := ⟨hrom, hlegal, hst, hms, hr, hs, hq⟩
  refine ⟨fun k h1 hk => ?_, ?_, ?_⟩
  · obtain ⟨j, rfl⟩ := Nat.exists_eq_add_of_le' h1
    obtain ⟨v, -, hrun⟩ := h.runFor_evaluating (Nat.le_of_succ_le hk)
    exact ⟨_, hrun, h.selectInstr_iter hk v⟩
  · obtain ⟨v, -, hrun⟩ := h.runFor_evaluating le_rfl
    exact ⟨_, hrun, h.selectInstr_finish v⟩
  · obtain ⟨v, a, b, -, hsc, hrun⟩ := h.runFor_evaluated
    exact ⟨_, a, b, hrun, hsc, rfl, rfl⟩

/-- Settles O55: both runs end with `SinCos` and the last vector of the same phase on the same tables
(`Accepts.runFor_evaluated`). -/
theorem resultDependsOnPhaseAndTablesOnly : Obligations.ResultDependsOnPhaseAndTablesOnly := by
  intro s s' rom cmd cmd' ms ms' t t' hrom hrom' hcfg hlegal hst hst' hms hms' hr hr' hs hs' hphase hq hq' hrun hrun'
  have h : Accepts s rom cmd ms := ⟨hrom, hlegal, hst, hms, hr, hs, hq⟩
  have h' : Accepts s' rom cmd' ms' := ⟨hrom', hcfg ▸ hlegal, hst', hms', hr', hs', hcfg ▸ hq'⟩
  obtain ⟨v, a, b, hv, hsc, hend⟩ := h.runFor_evaluated
  obtain ⟨v', a', b', hv', hsc', hend'⟩ := h'.runFor_evaluated
  rw [hcfg, hphase] at hv' hsc'
  rw [hcfg] at hend'
  obtain rfl : v = v' := Except.ok.inj (hv.symm.trans hv')
  obtain ⟨rfl, rfl⟩ : a = a' ∧ b = b' := Prod.mk.inj (Except.ok.inj (hsc.symm.trans hsc'))
  obtain rfl : t = s.evaluated cmd ms v a b := Host.Outcome.next.inj (hrun.symm.trans hend)
  obtain rfl : t' = s'.evaluated cmd' ms' v a b := Host.Outcome.next.inj (hrun'.symm.trans hend')
  exact ⟨rfl, rfl, rfl, rfl, rfl⟩

end Sys2Proof.Machine
end

/-! Reset and power-up (70_reset_and_hazards.md, R230, R231). -/
section
namespace Sys2Proof.Machine

variable {c : Config} {rom : Rom} {cmd : Command} {ms : List HostMove}

/-- RESET writes the reset values and nothing else. -/
theorem exec_reset (s : State) : exec .reset s = .next (s.withRegs Regs.reset) := rfl

/-- Settles O1: RESET is one write of the registers (`exec_reset`), and `rst = 1` selects it in any state (`step_rst`). -/
theorem resetWritesResetValues : Obligations.ResetWritesResetValues := by
  intro s
  refine ⟨s.withRegs Regs.reset, exec_reset s, rfl, ?_, rfl, rfl, rfl, rfl, rfl, fun _ _ => step_rst⟩
  exact { cfg := rfl, rom := rfl, messages := rfl, answer := rfl, pending := rfl }

/-- Before the first reset a cycle with `rst = 0` reads `st`, which holds no value (R231). -/
theorem step_powerUp_of_not_rst (hr : cmd.rst = false) :
    step ((State.powerUp c rom).withPending (.cycle cmd :: ms)) = .fault .undefRead := by
  have hstep := step_no_st (s := (State.powerUp c rom).withPending (.cycle cmd :: ms)) rfl rfl rfl
  rwa [hr, if_neg Bool.false_ne_true] at hstep

/-- Settles O3: a state without register values drives none, and its first cycle with `rst = 0` faults
(`step_powerUp_of_not_rst`). -/
theorem powerUpHoldsNoValue : Obligations.PowerUpHoldsNoValue :=
  fun _ _ _ _ => ⟨rfl, rfl, step_powerUp_of_not_rst⟩

end Sys2Proof.Machine
end

/-! The host protocol: what the ports show through an evaluation (70_reset_and_hazards.md, R238). -/
section
namespace Sys2Proof.Machine

variable {s : State} {r : Regs} {c : Config} {st : SeqCode} {tr : Bool} {p k : Nat} {v : Vec}

/-- Outside RUN `trace_valid` is 0, whatever `tr` holds (R173). -/
theorem Regs.traceValid_of_ne_run (hst : r.st = some st) (hne : st ≠ SeqCode.run) : r.traceValid = some false := by
  simp [Regs.traceValid, hst, hne]

/-- In RUN `trace_valid` is the trace latch (R173). -/
theorem Regs.traceValid_of_run (hst : r.st = some SeqCode.run) : r.traceValid = r.tr := by
  simp [Regs.traceValid, hst]

/-- While iterations are left, the sequencer is in RUN and counts them. -/
theorem Regs.evaluating_of_lt (hk : k < c.repsN) :
    (r.evaluating c p tr k v).st = some SeqCode.run ∧ (r.evaluating c p tr k v).i = some k :=
  ⟨congrArg some (if_neg hk.ne), congrArg some (if_neg hk.ne)⟩

/-- After the last iteration the sequencer is in FIN. -/
theorem Regs.evaluating_st_last : (r.evaluating c p tr c.repsN v).st = some SeqCode.fin := congrArg some (if_pos rfl)

/-- Settles O53: the states of the run are those of the evaluation (`Accepts.runFor_evaluating`,
`Accepts.runFor_evaluated`), whose sequencer code fixes `busy` and `trace_valid`; only FINISH writes the result ports. -/
theorem hostProtocolTimeline : Obligations.HostProtocolTimeline := by
  intro s rom cmd ms hrom hlegal hst hms hr hs hq
  have h : Accepts s rom cmd ms := ⟨hrom, hlegal, hst, hms, hr, hs, hq⟩
  refine ⟨Regs.busy_of_st hst, Regs.traceValid_of_ne_run hst (by decide), fun k h1 hk => ?_, ?_, ?_⟩
  · obtain ⟨j, rfl⟩ := Nat.exists_eq_add_of_le' h1
    obtain ⟨v, -, hrun⟩ := h.runFor_evaluating (Nat.le_of_succ_le hk)
    obtain ⟨hst', hi⟩ := Regs.evaluating_of_lt hk
    exact ⟨_, hrun, hst', hi, Regs.busy_of_st hst', Regs.traceValid_of_run hst', rfl, rfl, rfl⟩
  · obtain ⟨v, -, hrun⟩ := h.runFor_evaluating le_rfl
    have hst' : (s.evaluating cmd ms s.cfg.repsN v).regs.st = some SeqCode.fin := Regs.evaluating_st_last
    exact ⟨_, hrun, hst', Regs.busy_of_st hst', Regs.traceValid_of_ne_run hst' (by decide), rfl, rfl, rfl⟩
  · obtain ⟨v, a, b, -, hsc, hrun⟩ := h.runFor_evaluated
    exact ⟨_, a, b, hrun, hsc, rfl, rfl, rfl, rfl, rfl, rfl⟩

end Sys2Proof.Machine
end

/-! Commands while the core is busy, and how a computation begins (70_reset_and_hazards.md, R233). -/
section
namespace Sys2Proof.Machine

variable {s t : State} {rom : Rom} {cmd : Command} {st : SeqCode} {ms : List HostMove} {i : Instr} {tr : Bool} {p : Nat}

/-- No instruction takes or adds a move of the host. -/
theorem exec_pending (h : exec i s = .next t) : t.pending = s.pending := by
  rcases exec_cases h with ⟨-, rfl⟩ | ⟨-, rfl⟩ | ⟨_, _, _, -, -, -, rfl⟩ | ⟨-, _, _, _, -, -, -, rfl⟩ |
    ⟨-, _, _, _, _, -, -, -, -, -, rfl⟩ | ⟨-, -, -, rfl⟩ | ⟨-, rfl⟩ <;> rfl

/-- In RUN and FIN a command without reset is not looked at (R75). -/
theorem classify_busy (hst : st = SeqCode.run ∨ st = SeqCode.fin) (hr : cmd.rst = false) :
    classify st cmd = if st = SeqCode.run then .iter else .finish := by
  rcases hst with rfl | rfl
  · exact classify_run hr
  · exact classify_fin hr

/-- In RUN and FIN a cycle without reset is ITER or FINISH, and its command is gone with the host's move. -/
theorem step_busy (hrom : s.rom = some rom) (hst : s.regs.st = some st) (hbusy : st = SeqCode.run ∨ st = SeqCode.fin)
    (hr : cmd.rst = false) :
    step (s.withPending (.cycle cmd :: ms)) =
      exec (if st = SeqCode.run then .iter else .finish) (s.withPending ms) := by
  have hcycle : InCycle (s.withPending (.cycle cmd :: ms)) rom cmd st := ⟨hrom, rfl, hst⟩
  exact hcycle.step_eq (classify_busy hbusy hr)

/-- Only a load leads to RUN from another code. -/
theorem exec_load_of_enters_run (hs : s.regs.st ≠ some SeqCode.run) (h : exec i s = .next t)
    (ht : t.regs.st = some SeqCode.run) : ∃ (tr : Bool) (p : Nat), i = if tr then .sincosT p else .sincos p := by
  have hidle : some SeqCode.idle ≠ some SeqCode.run := by decide
  have hfin : some SeqCode.fin ≠ some SeqCode.run := by decide
  rcases exec_cases h with ⟨-, rfl⟩ | ⟨-, rfl⟩ | ⟨tr, p, v, hi, -, -, -⟩ | ⟨-, k, v, w, -, -, -, rfl⟩ |
    ⟨-, x, y, fc, fs, -, -, -, -, -, rfl⟩ | ⟨-, -, -, rfl⟩ | ⟨-, rfl⟩
  · exact absurd ht hidle
  · exact absurd ht hs
  · exact ⟨tr, p, hi⟩
  · rw [State.withRegs_regs, Regs.iterated_st] at ht
    split at ht
    · exact absurd ht hfin
    · exact absurd ht hs
  · exact absurd ht hidle
  · exact absurd ht hs
  · exact absurd ht hs

/-- R75 selects a load only in IDLE, with `start = 1` and `rst = 0`. -/
theorem classify_eq_load (h : classify st cmd = if tr then .sincosT p else .sincos p) :
    st = SeqCode.idle ∧ cmd.start = true ∧ cmd.rst = false := by
  rcases classify_cases st cmd with ⟨-, hi⟩ | ⟨-, -, -, hi⟩ | ⟨hr, hst, hs, -⟩ | ⟨-, -, hi⟩ | ⟨-, -, hi⟩ | ⟨-, -, hi⟩
  case inr.inr.inl => exact ⟨hst, hs, hr⟩
  all_goals rw [hi] at h; cases tr <;> cases h

/-- Settles O56: in RUN and FIN the step is the one of the state without the move, whatever the command (`step_busy`), and
only a load enters RUN (`exec_load_of_enters_run`), which R75 selects in IDLE with `start = 1` (`classify_eq_load`). -/
theorem commandWhileBusyIsLost : Obligations.CommandWhileBusyIsLost := by
  refine ⟨fun s t rom st b tr p ms hrom hst hbusy => ?_, fun s t rom cmd st hcycle hne h ht => ?_⟩
  · have hstep (b tr : Bool) (p : Nat) := step_busy (cmd := ⟨false, b, tr, p⟩) (ms := ms) hrom hst hbusy rfl
    refine ⟨hstep b tr p, (hstep b tr p).trans (hstep false false 0).symm, fun h => ?_⟩
    rw [hstep] at h
    exact exec_pending h
  · have hs : (dropMove s).regs.st ≠ some SeqCode.run := by simpa [hcycle.code] using hne
    rw [hcycle.step_eq rfl] at h
    obtain ⟨tr, p, hi⟩ := exec_load_of_enters_run hs h ht
    exact classify_eq_load (cmd := cmd.atPort s.cfg) hi

end Sys2Proof.Machine
end

/-! Decode and encode agree (30_encoding.md, R74 to R76). -/
section
namespace Sys2Proof.Machine

variable {c : Config} {i : Instr}

/-- The family of Laws/PerInstr.lean over all instructions. -/
theorem encodedWord : ∀ i : Instr, Laws.EncodedWord.Statement i
  | .reset => Laws.EncodedWord.reset
  | .nop => Laws.EncodedWord.nop
  | .sincos p => Laws.EncodedWord.sincos p
  | .sincosT p => Laws.EncodedWord.sincosT p
  | .iter => Laws.EncodedWord.iter
  | .finish => Laws.EncodedWord.finish
  | .rsvd => Laws.EncodedWord.rsvd
  | .generate => Laws.EncodedWord.generate
  | .query => Laws.EncodedWord.query

/-- An operation of a clock cycle is encoded in every configuration (R76). -/
theorem encode_isSome : (encode c i).isSome = i.hasEncoding := by cases i <;> rfl

theorem hasEncoding_of_wellFormed (h : i.wellFormed c = true) : i.hasEncoding = true := (Bool.and_eq_true_iff.mp h).2

/-- Settles O12: the encoded word is the packing of a command that the port carries and that R75 classifies as the
instruction (`encodedWord`), and the decoder classifies the fields of a packed word (`decode_packDW`). -/
theorem decodeOfEncodeIsTheInstruction : Obligations.DecodeOfEncodeIsTheInstruction := by
  intro c i h
  obtain ⟨w, hw⟩ := Option.isSome_iff_exists.mp (encode_isSome.trans (hasEncoding_of_wellFormed h))
  obtain ⟨hlt, st, cmd, rfl, hcmd, hi⟩ := encodedWord i c w h hw
  exact ⟨_, hw, hlt, by rw [decode_packDW, atPort_of_wellFormed hcmd, hi]⟩

end Sys2Proof.Machine
end

/-! The invariant of a core that has been reset: it holds after a reset, and from it every step completes and keeps it
(10_state.md; 60_exceptions.md, R200). -/
section
namespace Sys2Proof.Machine

variable {s : State} {rom : Rom} {r : Regs} {cmd : Command}

/-- The invariant speaks of the configuration, the tables and the registers only. -/
theorem inv_withRegs (hrom : s.rom = some rom) (hl : Legal s.cfg rom) (hr : RegsOk s.cfg rom r) : Inv (s.withRegs r) :=
  ⟨rom, hrom, hl, hr⟩

/-- A load on a legal core completes and keeps the invariant (R142, R143). -/
theorem load_keeps_inv (hrom : s.rom = some rom) (hl : Legal s.cfg rom) (hr : RegsOk s.cfg rom s.regs) (tr : Bool)
    (p : Nat) : ∃ t, load tr p s = .next t ∧ Inv t := by
  obtain ⟨v, hv, hf, hload⟩ := exec_load_ok hrom hl tr p
  exact ⟨_, hload, inv_withRegs hrom hl (hr.loaded hl (portPhase_lt p) hv hf)⟩

/-- An iteration of an evaluation completes and keeps the invariant (R144). -/
theorem iter_keeps_inv (hrom : s.rom = some rom) (hl : Legal s.cfg rom) (hr : RegsOk s.cfg rom s.regs)
    (hst : s.regs.st = some SeqCode.run) {i : Nat} (hi : s.regs.i = some i) (hlt : i < s.cfg.repsN)
    (hc : Computing s.cfg rom s.regs i) : ∃ t, exec .iter s = .next t ∧ Inv t := by
  obtain ⟨p, v, hp, hv, hx, hy, hz, hfc, hfs⟩ := hc
  obtain ⟨w, hw, hf, hiter⟩ := exec_iter_ok hrom hl hi hlt hp hv hx hy hz
  exact ⟨_, hiter, inv_withRegs hrom hl (hr.iterated hst hi hlt hp hw hfc hfs hf)⟩

/-- The end of an evaluation completes and keeps the invariant (R145). -/
theorem finish_keeps_inv (hrom : s.rom = some rom) (hl : Legal s.cfg rom) (hr : RegsOk s.cfg rom s.regs)
    (hi : s.regs.i = some (s.cfg.repsN - 1)) (hc : Computing s.cfg rom s.regs s.cfg.repsN) :
    ∃ t, exec .finish s = .next t ∧ Inv t := by
  obtain ⟨p, v, hp, hv, hx, hy, -, hfc, hfs⟩ := hc
  obtain ⟨ha, hb, -, hfin⟩ := exec_finish_ok hl hp hv hx hy hfc hfs
  have hlt : s.cfg.repsN - 1 < s.cfg.repsN := Nat.sub_one_lt_of_lt hl.reps_pos
  exact ⟨_, hfin, inv_withRegs hrom hl (hr.finished hi hlt ha hb)⟩

/-- A cycle without reset in IDLE is NOP or a load, and keeps the invariant. -/
theorem InCycle.idle_keeps_inv (h : InCycle s rom cmd SeqCode.idle) (hrst : cmd.rst = false) (hl : Legal s.cfg rom)
    (hr : RegsOk s.cfg rom s.regs) : ∃ t, step s = .next t ∧ Inv t := by
  cases hs : cmd.start with
  | false => exact ⟨_, h.step_eq (classify_idle_of_not_start hrst hs), inv_withRegs h.built hl (hr.nop h.code)⟩
  | true =>
    rw [h.step_start hrst hs]
    exact load_keeps_inv (s := dropMove s) h.built hl hr cmd.traceEn cmd.phase

/-- EVERY STEP FROM THE INVARIANT completes and keeps it: the position of the sequencer fixes the operation of a cycle without
reset, and each operation keeps the invariant where it is selected. -/
theorem Inv.step_completes (h : Inv s) : ∃ t, step s = .next t ∧ Inv t := by
  obtain ⟨rom, hrom, hl, hr⟩ := h
  cases hm : nextMove s with
  | query => exact ⟨_, step_query hrom hm, rom, hrom, hl, hr⟩
  | cycle cmd =>
    cases hrst : cmd.rst with
    | true => exact ⟨_, step_rst hrom hm hrst, inv_withRegs hrom hl hl.regsOk_reset⟩
    | false =>
      rcases hr.sequencer with ⟨hst, -⟩ | ⟨hst, i, hi, hlt, hc⟩ | ⟨hst, hi, hc⟩
      · exact InCycle.idle_keeps_inv ⟨hrom, hm, hst⟩ hrst hl hr
      · rw [InCycle.step_eq ⟨hrom, hm, hst⟩ (classify_run hrst)]
        exact iter_keeps_inv (s := dropMove s) hrom hl hr hst hi hlt hc
      · rw [InCycle.step_eq ⟨hrom, hm, hst⟩ (classify_fin hrst)]
        exact finish_keeps_inv (s := dropMove s) hrom hl hr hi hc

/-- Settles O48: the step from the invariant is the one that keeps it (`Inv.step_completes`). -/
theorem stepKeepsTheInvariant : Obligations.StepKeepsTheInvariant := by
  intro s t hs h
  obtain ⟨u, hu, hinv⟩ := hs.step_completes
  obtain rfl : u = t := Host.Outcome.next.inj (hu.symm.trans h)
  exact hinv

/-- Settles O49, by `Inv.step_completes`. -/
theorem noStepFaultsFromTheInvariant : Obligations.NoStepFaultsFromTheInvariant :=
  fun _ hs => hs.step_completes.imp fun _ h => h.1

/-- Settles O47: RESET writes the reset values (`exec_reset`), which meet the registers' part of the invariant
(`Legal.regsOk_reset`). -/
theorem invariantAtReset : Obligations.InvariantAtReset :=
  ⟨fun s _ hrom hl => ⟨_, exec_reset s, rfl, inv_withRegs hrom hl hl.regsOk_reset⟩,
    refRom, rfl, legal_ref, legal_ref.regsOk_reset⟩

end Sys2Proof.Machine
end

/-! What each instruction writes, and what it leaves as it was (10_state.md, R38; 00_scope.md, R5). -/
section
namespace Sys2Proof.Machine

variable {s t : State} {r : Regs}

/-- A write of the registers changes nothing else. -/
theorem withRegs_surroundings : KeepsSurroundings s (s.withRegs r) := ⟨rfl, rfl, rfl, rfl, rfl⟩

/-- Settles O6: of each instruction `exec_cases` gives the registers it leaves, and every register that it does not write reads
as before. -/
theorem registersAreWrittenByTheirRowOnly : Obligations.RegistersAreWrittenByTheirRowOnly := by
  intro i s t h hi isLoad
  rcases exec_cases h with ⟨rfl, rfl⟩ | ⟨rfl, rfl⟩ | ⟨tr, p, v, rfl, -, -, rfl⟩ | ⟨rfl, k, v, w, -, -, -, rfl⟩ |
    ⟨rfl, x, y, fc, fs, -, -, -, -, -, rfl⟩ | ⟨rfl, -, -, rfl⟩ | ⟨rfl, rfl⟩
  case inl => exact absurd rfl hi
  case inr.inr.inl =>
    have hload : isLoad := ⟨p, by cases tr <;> simp⟩
    have hstatic : (if tr = true then Instr.sincosT p else .sincos p) ≠ .generate ∧
        (if tr = true then Instr.sincosT p else .sincos p) ≠ .query := by cases tr <;> simp
    exact ⟨fun _ => .inl hload, fun _ => .inl hload, fun _ => .inl hload, fun _ => hload, fun _ => hload, by simp,
      fun _ => hstatic⟩
  all_goals simp

/-- Settles O8, by the laws of the instructions (`exec_cfg`) and of the steps (`step_cfg`). -/
theorem configurationNeverChanges : Obligations.ConfigurationNeverChanges :=
  fun _ _ => ⟨fun _ => exec_cfg, step_cfg⟩

/-- A completed load leaves the results and everything that is no register. -/
theorem load_frame {tr : Bool} {p : Nat} (h : load tr p s = .next t) :
    t.regs.cosQ = s.regs.cosQ ∧ t.regs.sinQ = s.regs.sinQ ∧ KeepsSurroundings s t := by
  obtain ⟨v, -, -, rfl⟩ := load_next_iff.mp h
  exact ⟨rfl, rfl, withRegs_surroundings⟩

/-- Settles O35: both instructions are the load (`load_frame`). -/
theorem loadFrame : Obligations.LoadFrame :=
  fun _ _ _ h => h.elim load_frame load_frame

/-- Settles O36: ITER writes the registers of `Regs.iterated`, which keep `i` on the last iteration and `st` on the others. -/
theorem iterFrame : Obligations.IterFrame := by
  intro s t h
  obtain ⟨k, v, w, -, -, -, rfl⟩ := execIter_next_iff.mp h
  refine ⟨by simp, by simp, by simp, by simp, by simp, ?_, withRegs_surroundings⟩
  by_cases hlast : k + 1 = s.cfg.repsN
  · exact .inr (by simp [hlast])
  · exact .inl (by simp [hlast])

/-- Settles O37: FINISH writes the registers of `Regs.finished`. -/
theorem finishFrame : Obligations.FinishFrame := by
  intro s t h
  obtain ⟨x, y, fc, fs, -, -, -, -, -, rfl⟩ := execFinish_next_iff.mp h
  exact ⟨rfl, rfl, rfl, rfl, rfl, rfl, rfl, withRegs_surroundings⟩

/-- Settles O38: GENERATE writes the tables and the message count, QUERY the answer. -/
theorem elaborationFrame : Obligations.ElaborationFrame := by
  refine fun s t => ⟨fun h => ?_, fun h => ?_⟩
  · obtain ⟨-, -, rfl⟩ := execGenerate_next_iff.mp h
    exact ⟨rfl, rfl, rfl, rfl⟩
  · obtain rfl : s.withAnswer (queryAnswer s.cfg) = t := Host.Outcome.next.inj h
    exact ⟨rfl, rfl, rfl, rfl, rfl⟩

end Sys2Proof.Machine
end

/-! What a step performs, and what it does not look at (30_encoding.md, R75, R77; 70_reset_and_hazards.md, R232, R235). -/
section
namespace Sys2Proof.Machine

variable {s t : State} {st : SeqCode} {cmd cmd' : Command}

theorem seqCode_cases : ∀ st : SeqCode, st = SeqCode.idle ∨ st = SeqCode.run ∨ st = SeqCode.fin ∨ st = SeqCode.rsvd := by
  decide

/-- R75 selects RESET with `rst = 1` only. -/
theorem classify_ne_reset (hr : cmd.rst = false) : classify st cmd ≠ .reset := by
  rcases classify_cases st cmd with ⟨hr', -⟩ | ⟨-, -, -, hi⟩ | ⟨-, -, -, hi⟩ | ⟨-, -, hi⟩ | ⟨-, -, hi⟩ | ⟨-, -, hi⟩
  case inl => simp [hr] at hr'
  case inr.inr.inl => rw [hi]; split <;> simp
  all_goals simp [hi]

/-- R77. Commands that differ in inputs the cycle does not read select the same operation. -/
theorem classify_eq_of_unread (hr : cmd.rst = false) (hr' : cmd'.rst = false)
    (hidle : st = SeqCode.idle → cmd.start = false ∧ cmd'.start = false) : classify st cmd = classify st cmd' := by
  rcases seqCode_cases st with rfl | rfl | rfl | rfl
  · obtain ⟨hs, hs'⟩ := hidle rfl
    rw [classify_idle_of_not_start hr hs, classify_idle_of_not_start hr' hs']
  · rw [classify_run hr, classify_run hr']
  · rw [classify_fin hr, classify_fin hr']
  · rw [classify_rsvd hr, classify_rsvd hr']

/-- Settles O16: both cycles select the same operation (`classify_eq_of_unread`) and run it on the same state. -/
theorem unreadInputsAreIgnored : Obligations.UnreadInputsAreIgnored := by
  intro s rom st cmd cmd' ms hrom hst hr hr' hidle
  have hcycle (c : Command) : InCycle (s.withPending (.cycle c :: ms)) rom c st := ⟨hrom, rfl, hst⟩
  have hsame : classify st (cmd.atPort s.cfg) = classify st (cmd'.atPort s.cfg) := classify_eq_of_unread hr hr' hidle
  rw [(hcycle cmd).step_eq hsame, (hcycle cmd').step_eq rfl]
  rfl

/-- Settles O14: the decode of a cycle's word is R75's classification (`decode_packDW`), which the step performs. -/
theorem stepRunsTheDecodedInstruction : Obligations.StepRunsTheDecodedInstruction := by
  intro s rom cmd st i h hdec
  rw [decode_packDW] at hdec
  exact ⟨h.step_eq (Except.ok.inj hdec), rfl, rfl, rfl, rfl, rfl, rfl⟩

/-- Settles O15, by the law of the step that takes a QUERY (`step_query`). -/
theorem stepRunsTheQuery : Obligations.StepRunsTheQuery :=
  fun _ _ => step_query

/-- Settles O4: the step of an unbuilt core is GENERATE (`step_unbuilt`), which writes the tables and the message count
alone. -/
theorem generationComesFirst : Obligations.GenerationComesFirst := by
  refine fun s hrom => ⟨step_unbuilt hrom, fun t h => ?_⟩
  rw [step_unbuilt hrom] at h
  obtain ⟨-, -, rfl⟩ := execGenerate_next_iff.mp h
  exact ⟨rfl, rfl, rfl⟩

/-- Settles O7: the cycle is neither RESET (`classify_ne_reset`) nor FINISH (`classify_eq_finish_iff`), and no other
instruction writes a result (`registersAreWrittenByTheirRowOnly`). -/
theorem resultsHoldUntilTheNextFinish : Obligations.ResultsHoldUntilTheNextFinish := by
  intro s t rom cmd st hcycle h hr hfin
  rw [hcycle.step_eq rfl] at h
  have hne : classify st (cmd.atPort s.cfg) ≠ .finish := fun hi => hfin ((classify_eq_finish_iff _ _).mp hi).1
  obtain ⟨-, -, -, -, -, hresult, -⟩ := registersAreWrittenByTheirRowOnly _ _ _ h (classify_ne_reset hr)
  obtain ⟨hcos, hsin⟩ := not_or.mp (mt hresult hne)
  exact ⟨not_not.mp hcos, not_not.mp hsin⟩

end Sys2Proof.Machine
end

/-! The widths of the signed registers (10_state.md, R13; 30_encoding.md, R78). -/
section
namespace Sys2Proof.Machine

variable {s t : State} {i : Instr}

theorem WidthsHold.consumed (h : WidthsHold s) : WidthsHold (consumed s) := by
  obtain ⟨hst, hx, hy, hz, hcos, hsin⟩ := h
  exact ⟨by simpa using hst, by simpa using hx, by simpa using hy, by simpa using hz, by simpa using hcos,
    by simpa using hsin⟩

/-- The result value 0 fits a result register of at least one bit. -/
theorem fits_zero_of_pos {n : Nat} (h : 1 ≤ n) : fits n 0 = true := by
  obtain ⟨m, rfl⟩ := Nat.exists_eq_add_of_le' h
  exact fits_zero

/-- A completed instruction writes only values that fit, and not the reserved code. -/
theorem exec_keeps_widths (hout : 1 ≤ s.cfg.wOut) (hs : WidthsHold s) (h : exec i s = .next t) : WidthsHold t := by
  have hst := exec_st_ne_rsvd hs.seqNotReserved h
  obtain ⟨-, hx, hy, hz, hcos, hsin⟩ := hs
  rcases exec_cases h with ⟨-, rfl⟩ | ⟨-, rfl⟩ | ⟨tr, p, v, -, -, hf, rfl⟩ | ⟨-, k, v, w, -, -, hf, rfl⟩ |
    ⟨-, x, y, fc, fs, -, -, -, hfc, hfs, rfl⟩ | ⟨-, -, -, rfl⟩ | ⟨-, rfl⟩
  · have hzero := holdsFitting_some (fits_zero_of_pos hout)
    exact ⟨hst, holdsFitting_none, holdsFitting_none, holdsFitting_none, hzero, hzero⟩
  · exact ⟨hst, hx, hy, hz, hcos, hsin⟩
  · obtain ⟨hvx, hvy, hvz⟩ := Vec.fits_iff.mp hf
    exact ⟨hst, holdsFitting_some hvx, holdsFitting_some hvy, holdsFitting_some hvz, hcos, hsin⟩
  · obtain ⟨hwx, hwy, hwz⟩ := Vec.fits_iff.mp hf
    refine ⟨hst, ?_, ?_, ?_, ?_, ?_⟩ <;> simp [holdsFitting_some, *]
  · exact ⟨hst, hx, hy, hz, holdsFitting_some hfc, holdsFitting_some hfs⟩
  · exact ⟨hst, hx, hy, hz, hcos, hsin⟩
  · exact ⟨hst, hx, hy, hz, hcos, hsin⟩

/-- Settles O50: the step completes an instruction, which keeps the widths (`exec_keeps_widths`). -/
theorem stepKeepsTheWidths : Obligations.StepKeepsTheWidths := by
  intro s t hout hs h
  obtain ⟨i, -, hexec⟩ := step_next h
  exact exec_keeps_widths (by rwa [consumed_cfg]) hs.consumed hexec

/-- Settles O51: the reset state holds no vector and the results 0, a state at power-up holds nothing. -/
theorem widthsHoldAtReset : Obligations.WidthsHoldAtReset := by
  have hzero : HoldsFitting Config.ref.wOut (some 0) := holdsFitting_some (by decide)
  exact ⟨⟨by decide, holdsFitting_none, holdsFitting_none, holdsFitting_none, hzero, hzero⟩,
    fun c rom => ⟨(Option.some_ne_none _).symm, holdsFitting_none, holdsFitting_none, holdsFitting_none,
      holdsFitting_none, holdsFitting_none⟩⟩

/-- Settles O2: the reset state is written out in the model. -/
theorem resetStateHasResetColumn : Obligations.ResetStateHasResetColumn :=
  ⟨rfl, rfl, rfl, rfl, rfl, rfl, rfl, rfl, rfl, rfl, rfl, rfl, rfl⟩

end Sys2Proof.Machine
end

/-! Operations on a legal core: the addresses, the evaluation, and the order of the faults (20_memory.md, R57;
41_rotation_engine.md, R142 to R146; 60_exceptions.md, R200, R203). -/
section
namespace Sys2Proof.Machine

variable {s : State} {c : Config} {rom : Rom} {r : Regs} {i n p : Nat} {v : Vec} {tr : Bool}

theorem length_generateShift : (generateShift c).length = c.repsN := by simp [generateShift]

theorem Legal.shiftLength (h : Legal c rom) : rom.shift.length = c.repsN := by rw [h.shifts, length_generateShift]

/-- The index and its mirror are the two ends of a pair that adds up to `TS - 1` (R52). -/
theorem phaseIndex_add_mirrorIndex : phaseIndex c p + mirrorIndex c p = c.ts - 1 := by
  have h := phaseIndex_lt (c := c) p
  unfold mirrorIndex
  omega

theorem mirrorIndex_lt : mirrorIndex c p < c.ts := by
  have h := phaseIndex_lt (c := c) p
  have h2 := phaseIndex_add_mirrorIndex (c := c) (p := p)
  omega

/-- An iteration outside a table is `FAULT_ADDR` (R57). -/
theorem rotateAt_of_outside (h : rom.shift.length ≤ n ∨ rom.rot.length ≤ n) : rotateAt rom n v = .error .addr := by
  rcases h with h | h
  · simp [rotateAt, readEntry, List.getElem?_eq_none h]
  · cases hk : rom.shift[n]? <;> simp [rotateAt, readEntry, List.getElem?_eq_none h, hk]

/-- ITER where its registers hold values and an address is outside its table. -/
theorem execIter_of_outside (hrom : s.rom = some rom) (hv : HoldsVec s.regs i v)
    (h : rom.shift.length ≤ i ∨ rom.rot.length ≤ i) : exec .iter s = .fault .addr := by
  show execIter s = _
  have hw : rotateAt s.tables i v = .error .addr := by rw [tables_of_rom hrom]; exact rotateAt_of_outside h
  simp only [execIter, readIter_ok_iff.mpr hv, hw]
  rfl

/-- Settles O21: an index is below `TS` (`phaseIndex_lt`, `mirrorIndex_lt`), the length of `LUT`, and `REPS` is the length of
the other two tables, outside of which ITER faults (`execIter_of_outside`). -/
theorem addressesAreInRange : Obligations.AddressesAreInRange := by
  intro s rom hrom hl
  refine ⟨fun p => ?_, fun i hi => ?_, fun i v hv hi => ?_⟩
  · rw [hl.lutLength]
    exact ⟨phaseIndex_lt p, mirrorIndex_lt, phaseIndex_add_mirrorIndex⟩
  · rw [hl.rotLength, hl.shiftLength]
    exact ⟨hi, hi⟩
  · exact execIter_of_outside hrom hv (.inr (hl.rotLength.trans_le hi))

/-- Settles O23, by the load on a legal core (`exec_load_ok`). -/
theorem sincosCompletesOnALegalCore : Obligations.SincosCompletesOnALegalCore := by
  intro s rom phase hrom hl
  obtain ⟨⟨x, y, z⟩, hv, -, hload⟩ := exec_load_ok hrom hl false phase
  exact ⟨x, y, z, hload, hv⟩

/-- Settles O25, by the load on a legal core (`exec_load_ok`). -/
theorem sincosTCompletesOnALegalCore : Obligations.SincosTCompletesOnALegalCore := by
  intro s rom phase hrom hl
  obtain ⟨⟨x, y, z⟩, hv, -, hload⟩ := exec_load_ok hrom hl true phase
  exact ⟨x, y, z, hload, hv⟩

/-- Settles O28: ITER completes with the next vector (`exec_iter_ok`), and `Regs.iterated` says which of `st` and `i` moves. -/
theorem iterCompletesInAnEvaluation : Obligations.IterCompletesInAnEvaluation := by
  intro s rom i p v hrom hl hi hlt hp hv ⟨hx, hy, hz, hfc, hfs⟩
  obtain ⟨w, hw, -, hiter⟩ := exec_iter_ok hrom hl hi hlt hp hv hx hy hz
  refine ⟨_, w, hiter, hw, ⟨by simp, by simp, by simp, by simp [hfc], by simp [hfs]⟩, by simp, fun hlast => ?_, fun hmore => ?_⟩
  · simp [hlast, hi]
  · simp [hmore.ne]

/-- Settles O31, by FINISH on a finished evaluation (`exec_finish_ok`). -/
theorem finishCompletesAfterAnEvaluation : Obligations.FinishCompletesAfterAnEvaluation := by
  intro s rom p v hl hp hv ⟨hx, hy, _, hfc, hfs⟩
  obtain ⟨-, -, hsc, hfin⟩ := exec_finish_ok hl hp hv hx hy hfc hfs
  exact ⟨_, _, hsc, hfin⟩

/-- ITER's reads fail where one of its registers holds no value (R202). -/
theorem readIter_of_none (h : r.i = none ∨ r.x = none ∨ r.y = none ∨ r.z = none) : readIter r = .error .undefRead := by
  unfold readIter
  split
  · simp_all
  · rfl

/-- FINISH's reads fail where one of its registers holds no value (R202). -/
theorem readFinish_of_none (h : r.x = none ∨ r.y = none ∨ r.fc = none ∨ r.fs = none) :
    readFinish r = .error .undefRead := by
  unfold readFinish
  split
  · simp_all
  · rfl

/-- The load of a vector outside `LUT` is `FAULT_ADDR` (R57). -/
theorem loadVec_of_outside (h : rom.lut.length ≤ phaseIndex c p ∨ rom.lut.length ≤ mirrorIndex c p) :
    loadVec c rom p = .error .addr := by
  rcases h with h | h
  · simp [loadVec, startXY, readEntry, List.getElem?_eq_none h]
  · cases hk : rom.lut[phaseIndex c p]? <;> simp [loadVec, startXY, readEntry, List.getElem?_eq_none h, hk]

/-- Settles O34: the reads come first (`readIter_of_none`, `readFinish_of_none`), then the addresses (`execIter_of_outside`,
`loadVec_of_outside`), and a cycle with `rst = 1` is RESET (`step_rst`), which completes. -/
theorem faultsAreReportedInOrder : Obligations.FaultsAreReportedInOrder := by
  refine ⟨fun s h => ?_, fun s rom i v => execIter_of_outside, fun s h => ?_, fun s rom p hrom h => ?_,
    fun s rom cmd f hrom hm hr => ?_⟩
  · show execIter s = _
    simp only [execIter, readIter_of_none h]; rfl
  · show execFinish s = _
    simp only [execFinish, readFinish_of_none h]; rfl
  · have hv : loadVec s.cfg s.tables (portPhase s.cfg p) = .error .addr := by
      rw [tables_of_rom hrom]; exact loadVec_of_outside h
    exact ⟨load_fault_iff.mpr (.inl hv), load_fault_iff.mpr (.inl hv)⟩
  · rw [step_rst hrom hm hr, exec_reset]
    exact nofun

/-- Settles O54: after `k + 1` steps the registers are those of the evaluation before iteration `k`
(`Accepts.runFor_evaluating`), in RUN with the trace latch set, which opens the trace port. -/
theorem traceShowsTheEvaluation : Obligations.TraceShowsTheEvaluation := by
  intro s rom p ms hrom hl hst hms hq k hk
  have h : Accepts s rom ⟨false, true, true, p⟩ ms := ⟨hrom, hl, hst, hms, rfl, rfl, hq⟩
  obtain ⟨v, hv, hrun⟩ := h.runFor_evaluating hk.le
  obtain ⟨hrunning, hi⟩ := Regs.evaluating_of_lt (r := s.regs) (p := portPhase s.cfg p) (tr := true) (v := v) hk
  have hvalid := Regs.traceValid_of_run hrunning
  refine ⟨_, v, hrun, hv, hvalid, ?_, ?_, ?_, ?_⟩
  · exact (Regs.traced_of_traceValid hvalid _).trans hi
  all_goals exact Regs.traced_of_traceValid hvalid _

end Sys2Proof.Machine
end

/-! GENERATE and QUERY (40_table_generation.md; 42_query_and_trace.md; 60_exceptions.md, R201). -/
section
namespace Sys2Proof.Machine

variable {s : State} {c : Config} {rom : Rom} {i k : Nat} {e : CfgError}

/-- Check 3 of R201 never fails (I7). -/
theorem isPowerOfTwo_ts : isPowerOfTwo c.ts = true := by
  simp [isPowerOfTwo, Config.ts, Nat.log2_two_pow]

/-- GENERATE reports the error of the first check that fails. -/
theorem execGenerate_of_configError (h : configError s.cfg = some e) : exec .generate s = .fault (.cfgError e) := by
  show execGenerate s = _
  simp only [execGenerate, h]; rfl

/-- GENERATE reports `CFG_WIDTH` where checks 1 to 8 pass and check 9 does not. -/
theorem execGenerate_of_widths (h : configError s.cfg = none) (hw : widthsFit s.cfg (generateRom s.cfg) = false) :
    exec .generate s = .fault (.cfgError .cfgWidth) := by
  show execGenerate s = _
  simp only [execGenerate, h, hw]; rfl

/-- The checks of R201 without check 3. -/
theorem configError_eq : configError c =
    if c.reps ≤ 0 then some .cfgReps else if c.ib ≤ 0 then some .cfgIndex else if c.cb < 0 then some .cfgCordic
    else if c.ze < 0 then some .cfgZe else if c.cb + c.ze < 1 then some .cfgCz else if c.oe < 1 then some .cfgOe
    else if c.scale < 1 then some .cfgScale else none := by
  simp only [configError, isPowerOfTwo_ts, Bool.true_eq_false, if_false]

/-- Check 3 of R201 is never the first that fails. -/
theorem configError_ne_tableSize : configError c ≠ some .cfgTableSize := by
  rw [configError_eq]
  split_ifs <;> simp

/-- GENERATE never reports `CFG_TABLE_SIZE`: check 3 does not fail, and check 9 has an error of its own. -/
theorem execGenerate_ne_tableSize : exec .generate s ≠ .fault (.cfgError .cfgTableSize) := by
  intro h
  cases hc : configError s.cfg with
  | some e =>
    rw [execGenerate_of_configError hc, Host.Outcome.fault.injEq, Fault.cfgError.injEq] at h
    exact configError_ne_tableSize (h ▸ hc)
  | none =>
    cases hw : widthsFit s.cfg (generateRom s.cfg) with
    | true => exact nomatch (execGenerate_next_iff.mpr ⟨hc, hw, rfl⟩).symm.trans h
    | false => exact nomatch (execGenerate_of_widths hc hw).symm.trans h

/-- Settles O40: each hypothesis says which of the checks (`configError_eq`) is the first to fail, and GENERATE reports that
one (`execGenerate_of_configError`). -/
theorem generateReportsTheFirstFailingCheck : Obligations.GenerateReportsTheFirstFailingCheck := by
  intro s
  refine ⟨fun h1 => execGenerate_of_configError ?_, fun h1 h2 => execGenerate_of_configError ?_, fun h1 h2 =>
    ⟨fun h4 => execGenerate_of_configError ?_, fun h4 => ⟨fun h5 => execGenerate_of_configError ?_, fun h5 =>
    ⟨fun h6 => execGenerate_of_configError ?_, fun h6 => ⟨fun h7 => execGenerate_of_configError ?_, fun h7 =>
    ⟨fun h8 => execGenerate_of_configError ?_, fun h8 => execGenerate_of_widths ?_⟩⟩⟩⟩⟩, execGenerate_ne_tableSize⟩
  all_goals rw [configError_eq]
  · exact if_pos h1
  · rw [if_neg h1.not_ge, if_pos h2]
  · rw [if_neg h1.not_ge, if_neg h2.not_ge, if_pos h4]
  · rw [if_neg h1.not_ge, if_neg h2.not_ge, if_neg h4.not_gt, if_pos h5]
  · rw [if_neg h1.not_ge, if_neg h2.not_ge, if_neg h4.not_gt, if_neg h5.not_gt, if_pos h6]
  · rw [if_neg h1.not_ge, if_neg h2.not_ge, if_neg h4.not_gt, if_neg h5.not_gt, if_neg h6.not_gt, if_pos h7]
  · rw [if_neg h1.not_ge, if_neg h2.not_ge, if_neg h4.not_gt, if_neg h5.not_gt, if_neg h6.not_gt, if_neg h7.not_gt,
      if_pos h8]
  · rw [if_neg h1.not_ge, if_neg h2.not_ge, if_neg h4.not_gt, if_neg h5.not_gt, if_neg h6.not_gt, if_neg h7.not_gt,
      if_neg h8.not_gt]

/-- An entry of `ROT` is the formula's at its address (R105). -/
theorem generateRot_getElem?_eq_some {r : SVal} : (generateRot c)[i]? = some r ↔ i < c.repsN ∧ rotEntry c i = r := by
  rw [generateRot, List.getElem?_map, Option.map_eq_some_iff]
  simp [List.getElem?_eq_some_iff]

/-- An entry of `SHIFT` is the formula's at its address (R106). -/
theorem generateShift_getElem?_eq_some {n : Nat} : (generateShift c)[i]? = some n ↔ i < c.repsN ∧ c.ibN + i = n := by
  rw [generateShift, List.getElem?_map, Option.map_eq_some_iff]
  simp [List.getElem?_eq_some_iff, shiftEntry]

/-- An entry of `LUT` is the formula's at its address (R109). -/
theorem generateLut_getElem?_eq_some {a : SVal} :
    (generateLut c)[k]? = some a ↔ k < c.ts ∧ lutEntry c (tableMagnitude c) k = a := by
  rw [generateLut, List.getElem?_map, Option.map_eq_some_iff]
  simp [List.getElem?_eq_some_iff]

/-- The diagnostic compares every entry with the first, which is all pairs (R110). -/
theorem allIdentical_iff {l : List SVal} : allIdentical l = true ↔ ∀ a ∈ l, ∀ b ∈ l, a = b := by
  simp only [allIdentical, List.all_eq_true, beq_iff_eq]
  refine ⟨fun h a ha b hb => (h a ha).trans (h b hb).symm, fun h a ha => ?_⟩
  cases l with
  | nil => exact absurd ha List.not_mem_nil
  | cons x xs => exact h a ha x List.mem_cons_self

/-- Settles O39: the tables are the generated ones, legal by `legal_generateRom`; their entries are the formulas', with the
bounds of `rotEntry_near`, `rotEntry_le` and `lutEntry_near`. -/
theorem generateBuildsTheTables : Obligations.GenerateBuildsTheTables := by
  intro s hc hw
  have hl := legal_generateRom hc hw
  refine ⟨generateRom s.cfg, execGenerate_next_iff.mpr ⟨hc, hw, rfl⟩, hl, hl.rotLength, hl.shiftLength, hl.lutLength,
    fun i hi => ⟨generateRot_getElem?_eq_some.mpr ⟨hi, rfl⟩, generateShift_getElem?_eq_some.mpr ⟨hi, rfl⟩⟩,
    fun k hk => generateLut_getElem?_eq_some.mpr ⟨hk, rfl⟩, hl.rotPositive, allIdentical_iff, fun i r hr => ?_,
    fun k a ha => ?_⟩
  · obtain ⟨-, rfl⟩ := generateRot_getElem?_eq_some.mp hr
    exact ⟨rotEntry_near, rotEntry_le⟩
  · intro v
    obtain ⟨-, rfl⟩ := generateLut_getElem?_eq_some.mp ha
    exact lutEntry_near

/-- GENERATE with a known result: an accepted configuration whose tables have `DIAG_UNIFORM = 0` reports no message. -/
theorem execGenerate_of_rom (hc : configError s.cfg = none) (hw : widthsFit s.cfg rom = true)
    (hrom : generateRom s.cfg = rom) (hd : rom.diagUniform = false) : exec .generate s = .next { s with rom := some rom } := by
  subst hrom
  refine execGenerate_next_iff.mpr ⟨hc, hw, ?_⟩
  rw [messageCount_eq, hd]
  rfl

/-- Settles O41: the generated tables are the listed ones (`generateRom_ref`, `generateRom_tiny`), which pass check 9
(`widthsFit_ref`, `widthsFit_tiny`). -/
theorem namedConfigurationsGenerateTheirTables : Obligations.NamedConfigurationsGenerateTheirTables := by
  refine ⟨fun s h => ?_, fun s h => ?_, rfl, rfl, ?_⟩
  · refine execGenerate_of_rom ?_ ?_ ?_ rfl <;> rw [h]
    · decide
    · exact widthsFit_ref
    · exact generateRom_ref
  · refine execGenerate_of_rom (rom := tinyRom) ?_ ?_ ?_ rfl <;> rw [h]
    · decide
    · exact widthsFit_tiny
    · exact generateRom_tiny
  · decide +kernel

/-- REF with `ZE = 0` has one rotation angle only (95_test_vectors.md section 4.1). -/
theorem generateRot_ref_ze_zero : generateRot { Config.ref with ze := 0 } = List.replicate 24 333773 := by decide +kernel

/-- Settles O42: the table is uniform (`generateRot_ref_ze_zero`), and the diagnostic is the count of messages. -/
theorem uniformTableFiresTheDiagnosticOnce : Obligations.UniformTableFiresTheDiagnosticOnce := by
  have hdiag : (generateRom { Config.ref with ze := 0 }).diagUniform = true := by
    rw [generateRom_diagUniform, generateRot_ref_ze_zero]; decide
  refine ⟨generateRot_ref_ze_zero, hdiag, ?_, ?_⟩
  · rw [messageCount_eq, hdiag]; rfl
  · rw [messageCount_eq, generateRom_ref]; rfl

/-- Settles O43, by `startShift_eq` and `iterTangent_eq`. -/
theorem startShiftIsMinusIndexBits : Obligations.StartShiftIsMinusIndexBits := by
  intro c h0 h30
  have hib : (c.ibN : Int) = c.ib := Int.toNat_of_nonneg h0
  have hle : c.ibN ≤ 30 := by omega
  exact ⟨hib ▸ startShift_eq hle, iterTangent_eq hle⟩

/-- Settles O44: QUERY writes the answer, which is a function of the configuration. -/
theorem queryReturnsTheConstants : Obligations.QueryReturnsTheConstants :=
  ⟨fun _ => rfl, by decide, by decide⟩

end Sys2Proof.Machine
end

/-! Words, results and lines that the spec writes out (30_encoding.md section 4; 95_test_vectors.md sections 2, 4.7 and 5). -/
section
namespace Sys2Proof.Machine

variable {c : Config} {p : Nat} {tr : Bool}

/-- Settles O13: the decoder evaluated on the nine words. -/
theorem writtenOutWordsDecode : Obligations.WrittenOutWordsDecode := by
  unfold Obligations.WrittenOutWordsDecode
  decide +kernel

/-- Settles O59: the contract evaluated at the six phases. -/
theorem listedResults : Obligations.ListedResults := by
  unfold Obligations.ListedResults
  decide +kernel

theorem assembleStart_of_lt (h : p < 2 ^ c.inb) : assembleStart c tr p = some ⟨false, true, tr, p⟩ := if_pos h

theorem assembleStart_of_le (h : 2 ^ c.inb ≤ p) : assembleStart c tr p = none := if_neg h.not_gt

/-- `SINCOS.W` of a phase in range is `REPS + 2` lines. -/
theorem assembleLine_sincosW (h : p < 2 ^ c.inb) :
    assembleLine c (.sincosW p) = some (⟨false, true, false, p⟩ :: List.replicate (c.repsN + 1) Command.idle) := by
  simp only [assembleLine, assembleStart_of_lt h, Option.map_some]

/-- Settles O60: a literal in range is the command (`assembleStart_of_lt`), one out of range is refused
(`assembleStart_of_le`). -/
theorem pseudoInstructionsExpand : Obligations.PseudoInstructionsExpand := by
  refine ⟨fun _ _ => rfl, fun c p h => ?_, fun c p h => ?_, fun p h => ?_, fun p h => ?_⟩
  · simp [assemble, assembleLine, assembleStart_of_lt h]
  · simp [assembleLine, assembleStart_of_le h]
  · rw [assembleLine_sincosW (c := Config.tiny) h]; rfl
  · rw [assembleLine_sincosW (c := Config.ref) h]; rfl

end Sys2Proof.Machine
end

/-! The bounds of every vector of an evaluation (41_rotation_engine.md, R148). -/
section
namespace Sys2Proof.Machine

variable {c : Config} {rom : Rom} {a b : Int} {k n p : Nat} {r : SVal} {v : Vec}

theorem asr_mono (h : a ≤ b) : asr a k ≤ asr b k := by
  rw [asr_eq, asr_eq]
  exact Int.ediv_le_ediv (by positivity) h

/-- The shift of a bounded value: the floor of a negative one can lie one below the negated bound. -/
theorem abs_asr_le (h : |a| ≤ b) : |asr a k| ≤ asr b k + 1 := by
  obtain ⟨hlow, hhigh⟩ := abs_le.mp h
  have h1 : asr (-b) k ≤ asr a k := asr_mono hlow
  have h2 : asr a k ≤ asr b k := asr_mono hhigh
  have h3 : -asr b k - 1 ≤ asr (-b) k := by rw [asr_neg]; split <;> omega
  exact abs_le.mpr ⟨by omega, by omega⟩

/-- One iteration keeps the bound of R148 on the two coordinates. -/
theorem rotate_abs_xy (hx : |v.x| ≤ b) (hy : |v.y| ≤ b) :
    |(rotate k r v).x| ≤ growXY k b ∧ |(rotate k r v).y| ≤ growXY k b := by
  have htx : |asr v.x k| ≤ asr b k + 1 := abs_asr_le hx
  have hty : |asr v.y k| ≤ asr b k + 1 := abs_asr_le hy
  have hadd (u w : Int) (hu : |u| ≤ b) (hw : |w| ≤ asr b k + 1) : |u + w| ≤ growXY k b ∧ |u - w| ≤ growXY k b := by
    rw [growXY, add_assoc]
    exact ⟨(abs_add_le u w).trans (add_le_add hu hw), (abs_sub u w).trans (add_le_add hu hw)⟩
  unfold rotate
  split
  · exact ⟨(hadd _ _ hx hty).1, (hadd _ _ hy htx).2⟩
  · exact ⟨(hadd _ _ hx hty).2, (hadd _ _ hy htx).1⟩

/-- An entry of `LUT` is within `A_0` (R148). -/
theorem abs_le_maxAbsLut (h : rom.lut[k]? = some a) : |a| ≤ maxAbsLut rom :=
  (maxAbsLut_le_iff.mp le_rfl).2 a (List.mem_of_getElem? h)

/-- The load finds its entries, within the bounds of R148 before iteration 0. -/
theorem Shaped.loadVec_bounds (h : Shaped c rom) (hcz : 1 ≤ c.cbN + c.zeN) (p : Nat) :
    ∃ v, loadVec c rom p = .ok v ∧ |v.z| ≤ boundZ c rom 0 ∧ |v.x| ≤ boundXY rom 0 ∧ |v.y| ≤ boundXY rom 0 := by
  have hi := List.getElem?_eq_getElem (l := rom.lut) (h.lutLength ▸ phaseIndex_lt p)
  have hm := List.getElem?_eq_getElem (l := rom.lut) (h.lutLength ▸ mirrorIndex_lt (p := p))
  refine ⟨_, loadVec_ok_iff.mpr ⟨_, _, hi, hm, rfl⟩, startZ_abs hcz p, ?_⟩
  cases phaseQ0 c p
  · exact ⟨abs_le_maxAbsLut hm, abs_le_maxAbsLut hi⟩
  · exact ⟨abs_le_maxAbsLut hi, abs_le_maxAbsLut hm⟩

/-- Inside the tables an iteration rotates within the next bounds of R148. -/
theorem Shaped.rotateAt_bounds (h : Shaped c rom) (hn : n < c.repsN) (hz : |v.z| ≤ boundZ c rom n)
    (hx : |v.x| ≤ boundXY rom n) (hy : |v.y| ≤ boundXY rom n) :
    ∃ w, rotateAt rom n v = .ok w ∧ |w.z| ≤ boundZ c rom (n + 1) ∧ |w.x| ≤ boundXY rom (n + 1) ∧
      |w.y| ≤ boundXY rom (n + 1) := by
  have hshift : n < rom.shift.length := by rw [h.shifts, length_generateShift]; exact hn
  have hrot : n < rom.rot.length := by rw [h.rotLength]; exact hn
  refine ⟨_, rotateAt_of_entries (List.getElem?_eq_getElem hshift) (List.getElem?_eq_getElem hrot), ?_, ?_⟩
  · rw [boundZ, List.getD_eq_getElem _ _ hrot]
    exact rotate_abs_z hz
  · rw [boundXY, List.getD_eq_getElem _ _ hshift]
    exact rotate_abs_xy hx hy

/-- THE BOUNDS OF R148 on every vector of an evaluation. -/
theorem Shaped.vecAt_bounds (h : Shaped c rom) (hcz : 1 ≤ c.cbN + c.zeN) (p : Nat) : ∀ {n : Nat}, n ≤ c.repsN →
    ∃ v, vecAt c rom p n = .ok v ∧ |v.z| ≤ boundZ c rom n ∧ |v.x| ≤ boundXY rom n ∧ |v.y| ≤ boundXY rom n
  | 0, _ => by rw [vecAt_zero]; exact h.loadVec_bounds hcz (portPhase c p)
  | n + 1, hn => by
    obtain ⟨v, hv, hz, hx, hy⟩ := h.vecAt_bounds hcz p (Nat.le_of_succ_le hn)
    rw [vecAt_succ hv]
    exact h.rotateAt_bounds hn hz hx hy

/-- `A_24` of REF, from the largest entry of its `LUT` (`maxAbsLut_ref`). -/
theorem boundXY_ref : boundXY refRom 24 = 8396436 := by
  simp only [boundXY, maxAbsLut_ref]
  decide +kernel

/-- A value within a bound below `2^(N-1)` fits `N` bits. -/
theorem fits_of_bound (hn : 1 ≤ n) (h : |a| ≤ b) (hb : b < 2 ^ (n - 1)) : fits n a = true := by
  obtain ⟨m, rfl⟩ := Nat.exists_eq_add_of_le' hn
  exact fits_of_abs_lt h hb

/-- Settles O57: the bounds hold by induction over the iterations (`Shaped.vecAt_bounds`), and a value below its register's
bound fits (`fits_of_bound`); the listed bounds are evaluated. -/
theorem vectorsStayWithinTheBounds : Obligations.VectorsStayWithinTheBounds := by
  refine ⟨fun c rom hc hrot hpos hshift hlut p n hn => ?_, by decide +kernel, by decide +kernel, boundXY_ref,
    by decide +kernel⟩
  obtain ⟨-, -, hcz, -⟩ := configError_none hc
  obtain ⟨v, hv, hz, hx, hy⟩ := Shaped.vecAt_bounds ⟨hrot, hpos, hshift, hlut⟩ hcz p hn
  exact ⟨v, hv, hz, hx, hy, fun hbz hbxy hwz hwxy =>
    Vec.fits_iff.mpr ⟨fits_of_bound hwxy hx hbxy, fits_of_bound hwxy hy hbxy, fits_of_bound hwz hz hbz⟩⟩

end Sys2Proof.Machine
end

/-! The symmetry of half a circle (41_rotation_engine.md, R149). -/
section
namespace Sys2Proof.Machine

variable {c : Config} {rom : Rom} {p n : Nat} {a : Int}

/-! ### The fields below `q1` do not see it -/

theorem phaseQ0_mod : phaseQ0 c (p % 2 ^ (c.inb - 1)) = phaseQ0 c p := by
  have h : c.inb - 2 < c.inb - 1 := by unfold Config.inb; omega
  simp [phaseQ0, Nat.testBit_mod_two_pow, h]

theorem phaseIndex_mod : phaseIndex c (p % 2 ^ (c.inb - 1)) = phaseIndex c p := by
  have hdvd : 2 ^ c.cbN * 2 ^ c.ibN ∣ 2 ^ (c.inb - 1) := by
    rw [← pow_add]; exact pow_dvd_pow 2 (by unfold Config.inb; omega)
  rw [phaseIndex, phaseIndex, ← Nat.mod_mul_right_div_self, ← Nat.mod_mul_right_div_self, Nat.mod_mod_of_dvd p hdvd]

theorem phaseRes_mod : phaseRes c (p % 2 ^ (c.inb - 1)) = phaseRes c p :=
  Nat.mod_mod_of_dvd p (pow_dvd_pow 2 (by unfold Config.inb; omega))

/-- The load reads the fields below `q1` only. -/
theorem loadVec_mod : loadVec c rom (p % 2 ^ (c.inb - 1)) = loadVec c rom p := by
  simp only [loadVec, startXY, mirrorIndex, startZ, foldedResidual, residual, phaseQ0_mod, phaseIndex_mod, phaseRes_mod]

/-! ### Half a circle further on -/

/-- The phase half a circle further on, as the port carries it. -/
theorem portPhase_half_circle :
    portPhase c ((p + c.fullCircle / 2) % c.fullCircle) = (2 ^ (c.inb - 1) + p) % 2 ^ (c.inb - 1 + 1) := by
  have hinb : c.inb = c.inb - 1 + 1 := by unfold Config.inb; omega
  have hfull : c.fullCircle = 2 ^ (c.inb - 1 + 1) := congrArg (2 ^ ·) hinb
  rw [portPhase, Nat.mod_mod, hfull, pow_succ, Nat.mul_div_cancel _ two_pos, add_comm p]

/-- Half a circle further on `q1` is the other one. -/
theorem phaseQ1_half_circle :
    phaseQ1 c (portPhase c ((p + c.fullCircle / 2) % c.fullCircle)) = !phaseQ1 c (portPhase c p) := by
  have hlt : c.inb - 1 < c.inb := by unfold Config.inb; omega
  rw [portPhase_half_circle]
  simp [phaseQ1, portPhase, Config.fullCircle, Nat.testBit_mod_two_pow, Nat.testBit_two_pow_add_eq, hlt]

/-- Half a circle further on the bits below `q1` are the same. -/
theorem portPhase_half_circle_mod :
    portPhase c ((p + c.fullCircle / 2) % c.fullCircle) % 2 ^ (c.inb - 1) = portPhase c p % 2 ^ (c.inb - 1) := by
  rw [portPhase_half_circle, Nat.mod_mod_of_dvd _ (pow_dvd_pow 2 (Nat.le_succ _)), Nat.add_mod_left, portPhase,
    Config.fullCircle, Nat.mod_mod_of_dvd _ (pow_dvd_pow 2 (Nat.sub_le ..))]

/-- Half a circle further on the evaluation has the same vectors. -/
theorem vecAt_half_circle : vecAt c rom ((p + c.fullCircle / 2) % c.fullCircle) n = vecAt c rom p n := by
  unfold vecAt
  rw [← loadVec_mod, portPhase_half_circle_mod, loadVec_mod]

/-- Half a circle further on both flips are the other ones. -/
theorem flips_half_circle :
    flipCos c (portPhase c ((p + c.fullCircle / 2) % c.fullCircle)) = !flipCos c (portPhase c p) ∧
    flipSin c (portPhase c ((p + c.fullCircle / 2) % c.fullCircle)) = !flipSin c (portPhase c p) := by
  have hq0 : phaseQ0 c (portPhase c ((p + c.fullCircle / 2) % c.fullCircle)) = phaseQ0 c (portPhase c p) := by
    rw [← phaseQ0_mod, portPhase_half_circle_mod, phaseQ0_mod]
  simp [flipCos, flipSin, phaseQ1_half_circle, hq0]

/-- The output with the other flip is the negation, or one less (R138). -/
theorem outputOf_not (flip : Bool) (a : SVal) :
    ∃ d : Int, (d = 0 ∨ d = 1) ∧ outputOf c (!flip) a = -outputOf c flip a - d := by
  have hneg (b : Int) : ∃ d : Int, (d = 0 ∨ d = 1) ∧ asr (-b) c.oeN = -asr b c.oeN - d := by
    rw [asr_neg]
    split
    · exact ⟨0, .inl rfl, (sub_zero _).symm⟩
    · exact ⟨1, .inr rfl, rfl⟩
  cases flip with
  | false => exact hneg a
  | true => simpa [outputOf, flipped] using hneg (-a)

/-- Settles O58: half a circle further on FINISH reads the same last vector (`vecAt_half_circle`) with both flips the other
way (`flips_half_circle`), which negates each output up to the floor (`outputOf_not`). -/
theorem halfCircleNegatesTheResult : Obligations.HalfCircleNegatesTheResult := by
  intro c rom p a b h
  obtain ⟨hcos, hsin⟩ := flips_half_circle (c := c) (p := p)
  cases hv : vecAt c rom p c.repsN with
  | error f => simp [sinCos, hv] at h
  | ok v =>
    simp only [sinCos, hv, Except.ok.injEq, Prod.mk.injEq] at h
    obtain ⟨rfl, rfl⟩ := h
    obtain ⟨da, hda, ha⟩ := outputOf_not (c := c) (flipCos c (portPhase c p)) v.x
    obtain ⟨db, hdb, hb⟩ := outputOf_not (c := c) (flipSin c (portPhase c p)) v.y
    exact ⟨da, db, hda, hdb, by simp only [sinCos, vecAt_half_circle, hv, hcos, hsin, ha, hb]⟩

end Sys2Proof.Machine
end
